-- ==== Sys2Proof/Word.lean ====
section
/-! DEFINITION. The one word type of the machine. -/

namespace Sys2Proof

/-- The 8-bit unit of everything: registers, cells, operands, opcodes, addresses and the program counter
(00_scope.md R4, `XLEN` and `ALEN`; R5: an unsigned integer 0 to 255, bit 0 least significant). -/
abbrev Byte := BitVec 8

end Sys2Proof
end

