-- ==== Sys2Proof/Syntax.lean ====
section
/-! DEFINITION. The instructions of the opcode table, as syntax. -/

namespace Sys2Proof

/-- The fifteen instructions of 30_encoding.md R53, operands in fetch order. Every operand is the raw byte
(R52), register indices included: a byte of 8 to 255 in a register operand is an instruction whose step
raises IndexFault (R55), so it has to be representable; `Instr.WellFormed` tells the two apart. -/
inductive Instr where
  /-- `LOAD_CONST reg, value` (R90) -/
  | loadConst (reg value : Byte)
  /-- `MOVE dest, src` (R91) -/
  | move (dest src : Byte)
  /-- `ADD dest, src1, src2` (R100) -/
  | add (dest src1 src2 : Byte)
  /-- `SUB dest, src1, src2` (R101) -/
  | sub (dest src1 src2 : Byte)
  /-- `MUL dest, src1, src2` (R102) -/
  | mul (dest src1 src2 : Byte)
  /-- `DIV dest, src1, src2` (R103) -/
  | div (dest src1 src2 : Byte)
  /-- `LOAD_MEM reg, addr` (R110) -/
  | loadMem (reg addr : Byte)
  /-- `STORE_MEM addr, reg` (R111): the address comes first -/
  | storeMem (addr reg : Byte)
  /-- `JUMP addr` (R120) -/
  | jump (addr : Byte)
  /-- `JUMP_IF_ZERO reg, addr` (R121) -/
  | jumpIfZero (reg addr : Byte)
  /-- `JUMP_IF_NEG reg, addr` (R122) -/
  | jumpIfNeg (reg addr : Byte)
  /-- `CALL addr` (R123) -/
  | call (addr : Byte)
  /-- `RETURN` (R124) -/
  | ret
  /-- `HALT` (R130) -/
  | halt
  /-- `PRINT reg` (R131) -/
  | print (reg : Byte)
deriving DecidableEq, Repr

/-- The register-index operand bytes of an instruction (R52), in fetch order. -/
def Instr.regOperands : Instr → List Byte
  | .loadConst reg _ => [reg]
  | .move dest src => [dest, src]
  | .add dest src1 src2 => [dest, src1, src2]
  | .sub dest src1 src2 => [dest, src1, src2]
  | .mul dest src1 src2 => [dest, src1, src2]
  | .div dest src1 src2 => [dest, src1, src2]
  | .loadMem reg _ => [reg]
  | .storeMem _ reg => [reg]
  | .jump _ => []
  | .jumpIfZero reg _ => [reg]
  | .jumpIfNeg reg _ => [reg]
  | .call _ => []
  | .ret => []
  | .halt => []
  | .print reg => [reg]

/-- The length of an instruction in bytes (R57). -/
def Instr.length : Instr → Nat
  | .loadConst _ _ => 3
  | .move _ _ => 3
  | .add _ _ _ => 4
  | .sub _ _ _ => 4
  | .mul _ _ _ => 4
  | .div _ _ _ => 4
  | .loadMem _ _ => 3
  | .storeMem _ _ => 3
  | .jump _ => 2
  | .jumpIfZero _ _ => 3
  | .jumpIfNeg _ _ => 3
  | .call _ => 2
  | .ret => 1
  | .halt => 1
  | .print _ => 2

end Sys2Proof
end

