-- ==== Sys2Proof/Decode.lean ====
section
/-! DEFINITION. The decoder, total on any bytes, and the encoder (30_encoding.md). -/

namespace Sys2Proof

/-- A row of the opcode map, by the number of operand bytes it takes (R50): the instruction once those
bytes are given, in fetch order. -/
inductive OpcodeRow where
  | zero (i : Instr)
  | one (mk : Byte → Instr)
  | two (mk : Byte → Byte → Instr)
  | three (mk : Byte → Byte → Byte → Instr)

/-- The opcode map of R53, total over the 256 byte values; `none` is an illegal opcode (R54). -/
def opcodeRow (b0 : Byte) : Option OpcodeRow :=
  match b0.toNat with
  | 0x01 => some (.two .loadConst)
  | 0x02 => some (.two .move)
  | 0x03 => some (.three .add)
  | 0x04 => some (.three .sub)
  | 0x05 => some (.three .mul)
  | 0x06 => some (.three .div)
  | 0x07 => some (.two .loadMem)
  | 0x08 => some (.two .storeMem)
  | 0x09 => some (.one .jump)
  | 0x0A => some (.two .jumpIfZero)
  | 0x0B => some (.two .jumpIfNeg)
  | 0x0C => some (.one .call)
  | 0x0D => some (.zero .ret)
  | 0x0E => some (.zero .halt)
  | 0x0F => some (.one .print)
  | _ => none

/-- What the decoder reads at the head of a byte string. -/
inductive Decoded where
  /-- an instruction of the table (its register operands not yet checked, R73), and the bytes after it -/
  | instr (i : Instr) (rest : List Byte)
  /-- the opcode byte matches no row (R54) -/
  | illegalOpcode (b0 : Byte)
  /-- the byte string ends inside the instruction; memory, being circular, never does (R37) -/
  | truncated
deriving DecidableEq, Repr

/-- Bind the operand bytes of a row in the order they stand (R51, R72). -/
def OpcodeRow.bind : OpcodeRow → List Byte → Decoded
  | .zero i, rest => .instr i rest
  | .one mk, b1 :: rest => .instr (mk b1) rest
  | .two mk, b1 :: b2 :: rest => .instr (mk b1 b2) rest
  | .three mk, b1 :: b2 :: b3 :: rest => .instr (mk b1 b2 b3) rest
  | .one _, [] => .truncated
  | .two _, [] => .truncated
  | .two _, [_] => .truncated
  | .three _, [] => .truncated
  | .three _, [_] => .truncated
  | .three _, [_, _] => .truncated

/-- The decoder (R50, R53, R57, R58): the opcode byte alone selects the row and the length. -/
def decode : List Byte → Decoded
  | [] => .truncated
  | b0 :: rest =>
    match opcodeRow b0 with
    | none => .illegalOpcode b0
    | some row => row.bind rest

/-- The encoder: the bytes of an instruction, opcode first, operands in fetch order (R51, R53). -/
def encode : Instr → List Byte
  | .loadConst reg value => [0x01, reg, value]
  | .move dest src => [0x02, dest, src]
  | .add dest src1 src2 => [0x03, dest, src1, src2]
  | .sub dest src1 src2 => [0x04, dest, src1, src2]
  | .mul dest src1 src2 => [0x05, dest, src1, src2]
  | .div dest src1 src2 => [0x06, dest, src1, src2]
  | .loadMem reg addr => [0x07, reg, addr]
  | .storeMem addr reg => [0x08, addr, reg]
  | .jump addr => [0x09, addr]
  | .jumpIfZero reg addr => [0x0A, reg, addr]
  | .jumpIfNeg reg addr => [0x0B, reg, addr]
  | .call addr => [0x0C, addr]
  | .ret => [0x0D]
  | .halt => [0x0E]
  | .print reg => [0x0F, reg]

/-- The bytes of a table word, in the order they lie in memory: bits 7 to 0 are the first byte (DESIGN CHOICE, safe,
log 12; the spec's table writes the bytes in order and makes no number of them), and every bit from `nbits` up is 0, to
the longest instruction's four bytes. -/
def tableWordBytes (nbits w : Nat) : List Byte :=
  let v := w % 2 ^ nbits
  [BitVec.ofNat 8 v, BitVec.ofNat 8 (v / 2 ^ 8), BitVec.ofNat 8 (v / 2 ^ 16), BitVec.ofNat 8 (v / 2 ^ 24)]

/-- The instruction the decoder reads from a table word. -/
def decodeTableWord (nbits w : Nat) : Option Instr :=
  match decode (tableWordBytes nbits w) with
  | .instr i _ => some i
  | .illegalOpcode _ => none
  | .truncated => none

end Sys2Proof
end

