-- ==== Sys2Proof/Config.lean ====
section
/-! DEFINITION. The one parameter of 00_scope.md R4 that an implementation could set otherwise. The sizes of R4 are
fixed by the document ("not parameters of the model") and stand in the types: eight registers, 256 cells. -/

namespace Sys2Proof.Config

/-- The two policies R4 names for a register-index byte of 8 to 255. -/
inductive RegIndexPolicy where
  /-- the byte raises IndexFault -/
  | fault
  /-- the byte selects register `b mod 8` (92_eei_decisions.md D1: "The alternative, not adopted") -/
  | mask
deriving DecidableEq, Repr

/-- `REG_INDEX_POLICY`: the spec fixes `fault` (R4, R55, R73; its own decision, UNVERIFIED, unsafe, log 1). -/
abbrev regIndexPolicy : RegIndexPolicy := .fault

end Sys2Proof.Config
end

