-- ==== Sys2Proof/Machine/State.lean ====
section
/-! DEFINITION. The machine's state, its reset value, and the reasons it can stop. -/

namespace Sys2Proof.Machine

/-- Memory: the cells whose value differs from what an unlisted address reads as, by strictly rising address
(10_state.md R18; DESIGN CHOICE, safe, log 10). The form is `Memory.wf`. -/
abbrev Memory := List Host.Cell

/-- The index of a general register, R0 to R7 (10_state.md R10). -/
abbrev RegIndex := Fin 8

/-- The eight registers (10_state.md R10). -/
abbrev RegFile := Vector Byte 8

/-- `run_state` (10_state.md R16). -/
inductive RunState where
  | running
  | haltedOk
  | haltedError
deriving DecidableEq, Repr

/-- The run errors (60_exceptions.md R140); LoadError.TooLarge is no run error and is `Fault.loadTooLarge`. -/
inductive ErrorKind where
  | invalidOpcode
  | divisionByZero
  | indexFault
deriving DecidableEq, Repr

/-- One entry of the trace: the instruction address and the registers before the instruction
(10_state.md R17, 60_exceptions.md R152). -/
structure TraceEntry where
  pc   : Byte
  regs : RegFile
deriving DecidableEq, Repr

/-- The whole state of one core (10_state.md section 1: "Nothing else is state"). -/
structure State where
  /-- `x[0]` to `x[7]` (R10) -/
  regs     : RegFile
  /-- `mem[0]` to `mem[255]` (R18) -/
  mem      : Memory
  /-- the address of the next byte to fetch (R12) -/
  pc       : Byte
  /-- the call stack; the last element is the top (R14) -/
  cs       : List Byte
  /-- the output buffer, oldest character first (R15) -/
  out      : List Char
  /-- `run_state` (R16) -/
  runState : RunState
  /-- `error`: why the run ended in HaltedError (R16) -/
  error    : Option ErrorKind
  /-- the trace, oldest entry first (R17) -/
  trace    : List TraceEntry
deriving DecidableEq, Repr

/-- Reset, the document's "Construction" (10_state.md R23, 70_reset_and_hazards.md R170). Memory lists
nothing: all 256 cells are 0. -/
def State.reset : State where
  regs     := Vector.replicate 8 0
  mem      := []
  pc       := 0
  cs       := []
  out      := []
  runState := .running
  error    := none
  trace    := []

/-- What an operation can fail with, apart from the run errors, which are next states (60_exceptions.md R147). -/
inductive Fault where
  /-- LoadError.TooLarge (20_memory.md R43): raised by `load` for an image of more than 256 bytes and returned
  to its caller; the core is unchanged. No step raises it. Safe: nothing is claimed of the core. -/
  | loadTooLarge
deriving DecidableEq, Repr

/-- What the model gives no meaning to. -/
inductive Refusal where
  /-- an instruction without a meaning yet: raised by no arm of `exec`. Safe. -/
  | notModelled (mnemonic : String)
  /-- a step, `run` or `load` of a core that is not Running (40_sequencer.md R71, R80; UNVERIFIED, log 6): raised by `step`,
  `run` and `load`. Safe: nothing is claimed of what such a core does. -/
  | notRunning
deriving DecidableEq, Repr

/-- The answer of a meaning, of a step and of `load`. -/
abbrev Answer := Host.Outcome State Fault Refusal

end Sys2Proof.Machine
end

