-- ==== Sys2Proof/Machine/Ops.lean ====
section
/-! DEFINITION. The named operations over memory, registers, the program counter, the call stack, the output
buffer and the trace (the primitives of 00_scope.md R6), and the raising of an error. -/

namespace Sys2Proof.Machine

/-- What an address that memory does not list reads as: 0, the reset contents (10_state.md R23). -/
def Memory.unlisted : Byte := 0

/-- The canonical form: addresses strictly rising and inside the 256 cells, no entry equal to what an unlisted
address reads as. -/
abbrev Memory.wf (m : Memory) : Prop :=
  m.Pairwise (fun c d => c.1 < d.1) ∧ ∀ c ∈ m, c.1 < 256 ∧ c.2 ≠ Memory.unlisted

/-- `MemRead(a, 1)` (20_memory.md R31). -/
def Memory.read : Memory → Byte → Byte
  | [], _ => Memory.unlisted
  | (k, v) :: m, a => if k = a.toNat then v else Memory.read m a

/-- List the value `v` at key `k`, in place of a value listed there. -/
def Memory.insert (k : Nat) (v : Byte) : Memory → Memory
  | [] => [(k, v)]
  | (k', v') :: m =>
    if k' < k then (k', v') :: Memory.insert k v m
    else if k' = k then (k, v) :: m
    else (k, v) :: (k', v') :: m

/-- Unlist the key `k`. -/
def Memory.erase (k : Nat) (m : Memory) : Memory :=
  m.filter (fun c => c.1 ≠ k)

/-- `MemWrite(a, 1, v)` (20_memory.md R32); it keeps the canonical form. -/
def Memory.write (m : Memory) (a v : Byte) : Memory :=
  if v = Memory.unlisted then Memory.erase a.toNat m else Memory.insert a.toNat v m

/-- Write bytes to consecutive cells from `a` on, the address wrapping from 255 to 0 (20_memory.md R37). -/
def Memory.writeBytes (m : Memory) (a : Byte) : List Byte → Memory
  | [] => m
  | v :: vs => Memory.writeBytes (m.write a v) (a + 1) vs

/-- The `n` bytes from address `a` on, the address wrapping from 255 to 0 (20_memory.md R37). -/
def Memory.readBytes (m : Memory) (a : Byte) : Nat → List Byte
  | 0 => []
  | n + 1 => m.read a :: Memory.readBytes m (a + 1) n

/-- `x[r]` (10_state.md R10). -/
def State.readReg (s : State) (r : RegIndex) : Byte := s.regs[r]

/-- `x[r] <- v`: the whole register is replaced (10_state.md R10). -/
def State.writeReg (s : State) (r : RegIndex) (v : Byte) : State :=
  { s with regs := s.regs.set r v }

/-- `pc <- t` (10_state.md R12). -/
def State.setPc (s : State) (t : Byte) : State := { s with pc := t }

/-- `MemWrite` on the state (20_memory.md R32). -/
def State.writeMem (s : State) (a v : Byte) : State := { s with mem := s.mem.write a v }

/-- `Push(v)`: the new last element is the top (10_state.md R14). -/
def State.push (s : State) (v : Byte) : State := { s with cs := s.cs ++ [v] }

/-- `Pop()` with the popped value sent to `pc` (10_state.md R14, 44_control_flow.md R124); nothing when the
stack is empty. -/
def State.popToPc (s : State) : State :=
  match s.cs.getLast? with
  | some v => { s with cs := s.cs.dropLast, pc := v }
  | none => s

/-- `OutAppend(cs)` (10_state.md R15). -/
def State.outAppend (s : State) (chars : List Char) : State := { s with out := s.out ++ chars }

/-- `TraceAppend` of the present `pc` and registers (60_exceptions.md R152). -/
def State.traceAppend (s : State) : State := { s with trace := s.trace ++ [⟨s.pc, s.regs⟩] }

/-- `run_state <- HaltedOk` (45_system_output.md R130). -/
def State.haltOk (s : State) : State := { s with runState := .haltedOk }

/-- `raise E` (60_exceptions.md R147), the machine's only trap entry: nothing is saved, no handler runs and `pc`
stays where the fetches left it (R148). There is no return from an error (R149). -/
def State.raise (e : ErrorKind) (s : State) : State :=
  { s with runState := .haltedError, error := some e }

/-- `FetchByte()` (40_sequencer.md R70): the byte at `pc`, and `pc` advanced modulo 256. -/
def State.fetchByte (s : State) : Byte × State := (s.mem.read s.pc, s.setPc (s.pc + 1))

/-- `digit(d)`: the character of a decimal digit (45_system_output.md R132). -/
def digit (d : Nat) : Char := Char.ofNat ('0'.toNat + d)

/-- `Dec(v)`: the decimal numeral of `v`, no sign, no leading zeros (45_system_output.md R132). -/
def dec (v : Byte) : List Char :=
  let n := v.toNat
  if n < 10 then [digit n]
  else if n < 100 then [digit (n / 10), digit (n % 10)]
  else [digit (n / 100), digit (n / 10 % 10), digit (n % 10)]

end Sys2Proof.Machine
end

