-- ==== Sys2Proof/Machine/Operands.lean ====
section
/-! DEFINITION. The operand kinds of 30_encoding.md R52. An address and an immediate are their own byte and need
no operation; a register index is checked here. -/

namespace Sys2Proof.Machine

/-- The register a register-index byte selects under a policy (00_scope.md R4), or none where the byte faults. -/
def regIndexUnder : Config.RegIndexPolicy → Byte → Option RegIndex
  | .fault, b => if h : b.toNat < 8 then some ⟨b.toNat, h⟩ else none
  | .mask, b => some ⟨b.toNat % 8, Nat.mod_lt _ (by decide)⟩

/-- The register a register-index byte selects in this machine (30_encoding.md R55). -/
def regIndex (b : Byte) : Option RegIndex := regIndexUnder Config.regIndexPolicy b

/-- The index check of 40_sequencer.md R73 for an instruction with one register operand: IndexFault, or the
effect on the register selected. -/
def withReg (b : Byte) (s : State) (effect : RegIndex → Answer) : Answer :=
  match regIndex b with
  | some r => effect r
  | none => .next (s.raise .indexFault)

/-- The index check for two register operands: all are checked before the effect begins (R73). -/
def withReg2 (b1 b2 : Byte) (s : State) (effect : RegIndex → RegIndex → Answer) : Answer :=
  withReg b1 s fun r1 => withReg b2 s fun r2 => effect r1 r2

/-- The index check for three register operands (R73). -/
def withReg3 (b1 b2 b3 : Byte) (s : State) (effect : RegIndex → RegIndex → RegIndex → Answer) : Answer :=
  withReg b1 s fun r1 => withReg b2 s fun r2 => withReg b3 s fun r3 => effect r1 r2 r3

end Sys2Proof.Machine
end

