-- ==== Sys2Proof/Machine/Arithmetic.lean ====
section
/-! DEFINITION. ADD, SUB, MUL, DIV (42_arithmetic.md): operands read as integers 0 to 255, the exact result
computed, then narrowed to its residue modulo 256 (R104). -/

namespace Sys2Proof.Machine

/-- `(a + b) mod 256` (R100, R104). -/
def addByte (a b : Byte) : Byte := BitVec.ofNat 8 (a.toNat + b.toNat)

/-- `(a - b) mod 256`, the non-negative residue (R101, R104). -/
def subByte (a b : Byte) : Byte := BitVec.ofInt 8 ((a.toNat : Int) - (b.toNat : Int))

/-- `(a * b) mod 256` (R102, R104). -/
def mulByte (a b : Byte) : Byte := BitVec.ofNat 8 (a.toNat * b.toNat)

/-- `floor(a / b)`, for `b` not 0 (R103, R104). -/
def divByte (a b : Byte) : Byte := BitVec.ofNat 8 (a.toNat / b.toNat)

/-- ADD (R100). -/
def execAdd (dest src1 src2 : Byte) (s : State) : Answer :=
  withReg3 dest src1 src2 s fun d r1 r2 => .next (s.writeReg d (addByte (s.readReg r1) (s.readReg r2)))

/-- SUB (R101). -/
def execSub (dest src1 src2 : Byte) (s : State) : Answer :=
  withReg3 dest src1 src2 s fun d r1 r2 => .next (s.writeReg d (subByte (s.readReg r1) (s.readReg r2)))

/-- MUL (R102). -/
def execMul (dest src1 src2 : Byte) (s : State) : Answer :=
  withReg3 dest src1 src2 s fun d r1 r2 => .next (s.writeReg d (mulByte (s.readReg r1) (s.readReg r2)))

/-- DIV (R103): the divisor is tested first; DivisionByZero writes no register. -/
def execDiv (dest src1 src2 : Byte) (s : State) : Answer :=
  withReg3 dest src1 src2 s fun d r1 r2 =>
    if s.readReg r2 = 0 then .next (s.raise .divisionByZero)
    else .next (s.writeReg d (divByte (s.readReg r1) (s.readReg r2)))

end Sys2Proof.Machine
end

