-- ==== Sys2Proof/Machine/Flags.lean ====
section
/-! DEFINITION. The machine has no flags (10_state.md R19). What other machines keep in flags, the two
conditional jumps compute from a register when they run; those two tests stand here. -/

namespace Sys2Proof.Machine

/-- The test of JUMP_IF_ZERO (44_control_flow.md R121): all 8 bits are 0. -/
def isZero (v : Byte) : Bool := v == 0

/-- The test of JUMP_IF_NEG (44_control_flow.md R122): `(v & 0x80) != 0`. -/
def isNeg (v : Byte) : Bool := (v &&& 0x80) != 0

end Sys2Proof.Machine
end

