-- ==== Sys2Proof/Machine/ControlFlow.lean ====
section
/-! DEFINITION. JUMP, JUMP_IF_ZERO, JUMP_IF_NEG, CALL, RETURN (44_control_flow.md). The effect runs with `pc`
at the next address (R125); a transfer that is not taken leaves it there. -/

namespace Sys2Proof.Machine

/-- JUMP (R120). -/
def execJump (addr : Byte) (s : State) : Answer := .next (s.setPc addr)

/-- JUMP_IF_ZERO (R121). -/
def execJumpIfZero (reg addr : Byte) (s : State) : Answer :=
  withReg reg s fun r => .next (if isZero (s.readReg r) then s.setPc addr else s)

/-- JUMP_IF_NEG (R122). -/
def execJumpIfNeg (reg addr : Byte) (s : State) : Answer :=
  withReg reg s fun r => .next (if isNeg (s.readReg r) then s.setPc addr else s)

/-- CALL (R123): the next address is pushed before `pc` is overwritten. -/
def execCall (addr : Byte) (s : State) : Answer := .next ((s.push s.pc).setPc addr)

/-- RETURN (R124): on an empty stack it has no effect and execution falls through. -/
def execRet (s : State) : Answer := .next s.popToPc

end Sys2Proof.Machine
end

