-- ==== Sys2Proof/Machine/DataMove.lean ====
section
/-! DEFINITION. LOAD_CONST and MOVE (41_data_move.md). -/

namespace Sys2Proof.Machine

/-- LOAD_CONST (R90). -/
def execLoadConst (reg value : Byte) (s : State) : Answer :=
  withReg reg s fun r => .next (s.writeReg r value)

/-- MOVE (R91). -/
def execMove (dest src : Byte) (s : State) : Answer :=
  withReg2 dest src s fun d r => .next (s.writeReg d (s.readReg r))

end Sys2Proof.Machine
end

