-- ==== Sys2Proof/Machine/MemoryAccess.lean ====
section
/-! DEFINITION. LOAD_MEM and STORE_MEM (43_memory_access.md); the effective address is the operand byte itself. -/

namespace Sys2Proof.Machine

/-- LOAD_MEM (R110). -/
def execLoadMem (reg addr : Byte) (s : State) : Answer :=
  withReg reg s fun r => .next (s.writeReg r (s.mem.read addr))

/-- STORE_MEM (R111). -/
def execStoreMem (addr reg : Byte) (s : State) : Answer :=
  withReg reg s fun r => .next (s.writeMem addr (s.readReg r))

end Sys2Proof.Machine
end

