-- ==== Sys2Proof/Machine/SystemOutput.lean ====
section
/-! DEFINITION. HALT and PRINT (45_system_output.md). -/

namespace Sys2Proof.Machine

/-- HALT (R130). -/
def execHalt (s : State) : Answer := .next s.haltOk

/-- PRINT (R131). -/
def execPrint (reg : Byte) (s : State) : Answer :=
  withReg reg s fun r => .next (s.outAppend (dec (s.readReg r)))

end Sys2Proof.Machine
end

