-- ==== Sys2Proof/Machine/Dispatch.lean ====
section
/-! DEFINITION. The effect of an instruction: lines 5 and 6 of 40_sequencer.md R71, one meaning per row. -/

namespace Sys2Proof.Machine

def exec (i : Instr) (s : State) : Host.Outcome State Fault Refusal :=
  match i with
  | .loadConst reg value => Sys2Proof.Machine.execLoadConst reg value s
  | .move dest src => Sys2Proof.Machine.execMove dest src s
  | .add dest src1 src2 => Sys2Proof.Machine.execAdd dest src1 src2 s
  | .sub dest src1 src2 => Sys2Proof.Machine.execSub dest src1 src2 s
  | .mul dest src1 src2 => Sys2Proof.Machine.execMul dest src1 src2 s
  | .div dest src1 src2 => Sys2Proof.Machine.execDiv dest src1 src2 s
  | .loadMem reg addr => Sys2Proof.Machine.execLoadMem reg addr s
  | .storeMem addr reg => Sys2Proof.Machine.execStoreMem addr reg s
  | .jump addr => Sys2Proof.Machine.execJump addr s
  | .jumpIfZero reg addr => Sys2Proof.Machine.execJumpIfZero reg addr s
  | .jumpIfNeg reg addr => Sys2Proof.Machine.execJumpIfNeg reg addr s
  | .call addr => Sys2Proof.Machine.execCall addr s
  | .ret => Sys2Proof.Machine.execRet s
  | .halt => Sys2Proof.Machine.execHalt s
  | .print reg => Sys2Proof.Machine.execPrint reg s

end Sys2Proof.Machine
end

