-- ==== Sys2Proof/Machine/Sequencer.lean ====
section
/-! DEFINITION. The instruction sequencer (40_sequencer.md): fetch, decode, one step. -/

namespace Sys2Proof.Machine

/-- Fetch the operand bytes of a row, in order (40_sequencer.md R72). -/
def fetchOperands : OpcodeRow → State → Instr × State
  | .zero i, s => (i, s)
  | .one mk, s =>
    let (b1, s1) := s.fetchByte
    (mk b1, s1)
  | .two mk, s =>
    let (b1, s1) := s.fetchByte
    let (b2, s2) := s1.fetchByte
    (mk b1 b2, s2)
  | .three mk, s =>
    let (b1, s1) := s.fetchByte
    let (b2, s2) := s1.fetchByte
    let (b3, s3) := s2.fetchByte
    (mk b1 b2 b3, s3)

/-- Lines 2 to 4 of the step (R71): the instruction fetched, or none after an illegal opcode byte, of which no
operand is fetched (30_encoding.md R54); and the state with `pc` past the bytes fetched. -/
def fetchInstr (s : State) : Option Instr × State :=
  let (b0, s0) := s.fetchByte
  match opcodeRow b0 with
  | none => (none, s0)
  | some row =>
    let (i, s1) := fetchOperands row s0
    (some i, s1)

/-- One step of a Running core (R71): trace entry, fetch, then InvalidOpcode or the index check and effect. -/
def stepRunning (s : State) : Answer :=
  match fetchInstr s.traceAppend with
  | (none, s') => .next (s'.raise .invalidOpcode)
  | (some i, s') => exec i s'

/-- A step is defined only while Running; both Halted states are terminal (R71, 10_state.md R16). -/
def stepState (s : State) : Answer :=
  match s.runState with
  | .running => stepRunning s
  | .haltedOk => .refused .notRunning
  | .haltedError => .refused .notRunning

/-- Place bytes where the next instruction is fetched, wrapping with `pc` (20_memory.md R37). -/
def placeAtPc (bytes : List Byte) (s : State) : State :=
  { s with mem := s.mem.writeBytes s.pc bytes }

end Sys2Proof.Machine
end

