-- ==== Sys2Proof/Machine/Step.lean ====
section
/-! DEFINITION. The step of the machine, and a state with a given word at its program counter. -/

namespace Sys2Proof.Machine

/-- One step (40_sequencer.md R71): the execution of one instruction, or the refusal of a halted core. -/
def step (s : State) : Host.Outcome State Fault Refusal := stepState s

/-- The state with a table word stored at the bytes the next step fetches (DESIGN CHOICE, safe, log 12). -/
def State.withFetchWord (s : State) (nbits w : Nat) : State := placeAtPc (tableWordBytes nbits w) s

end Sys2Proof.Machine
end

