-- ==== Sys2Proof/Machine/HostInterface.lean ====
section
/-! DEFINITION. The transactions of the core boundary besides reset (70_reset_and_hazards.md R178): `load`,
`run` and the result record; and the port encodings. -/

namespace Sys2Proof.Machine

/-- `load(image)` (20_memory.md R42, R43): the image is copied to address 0 on and `pc` is set to 0; an image
of more than 256 bytes fails with LoadError.TooLarge and changes nothing (UNVERIFIED, unsafe, log 7). A core that
is not Running refuses, whatever the image (40_sequencer.md R80; UNVERIFIED, and DEDUCED for the order of the two
checks, safe, log 6 and log 7). -/
def load (image : List Byte) (s : State) : Answer :=
  match s.runState with
  | .running =>
    if 256 < image.length then .fault .loadTooLarge
    else .next { s with mem := s.mem.writeBytes 0 image, pc := 0 }
  | .haltedOk => .refused .notRunning
  | .haltedError => .refused .notRunning

/-- The result record, `ExecutionResult` (40_sequencer.md R76). -/
structure ExecutionResult where
  success   : Bool
  registers : RegFile
  output    : List Char
  trace     : List TraceEntry
  error     : Option ErrorKind
deriving DecidableEq, Repr

/-- `Result()`: a read-out of state that adds nothing (40_sequencer.md R76). -/
def State.result (s : State) : ExecutionResult where
  success   := decide (s.runState = .haltedOk)
  registers := s.regs
  output    := s.out
  trace     := s.trace
  error     := s.error

/-- What a run of bounded length comes to. The bound is the model's fuel and no part of the machine
(40_sequencer.md R77; DESIGN CHOICE, safe, log 4). -/
inductive RunOutcome where
  /-- the run ended and the host reads this record -/
  | ended (r : ExecutionResult)
  /-- the fuel ran out with the core still Running in this state: nothing is known of the run's end -/
  | outOfFuel (s : State)
  /-- a step faulted; no step does -/
  | fault (r : Fault)
  /-- `run` was refused -/
  | refused (r : Refusal)
deriving DecidableEq, Repr

/-- The loop of `run` (40_sequencer.md R74): steps while Running, then the result. -/
def runLoop : Nat → State → RunOutcome
  | fuel, s =>
    match s.runState with
    | .haltedOk => .ended s.result
    | .haltedError => .ended s.result
    | .running =>
      match fuel with
      | 0 => .outOfFuel s
      | fuel + 1 =>
        match step s with
        | .next s' => runLoop fuel s'
        | .fault r => .fault r
        | .refused r => .refused r

/-- `run()` (40_sequencer.md R74) of at most `fuel` steps; refused on a core that is not Running (R80; UNVERIFIED, safe, log 6). -/
def run (fuel : Nat) (s : State) : RunOutcome :=
  match s.runState with
  | .running => runLoop fuel s
  | .haltedOk => .refused .notRunning
  | .haltedError => .refused .notRunning

/-- The port encoding of `run_state` (10_state.md R16; UNVERIFIED, log 5). -/
def RunState.code : RunState → Nat
  | .running => 0
  | .haltedOk => 1
  | .haltedError => 2

/-- The port encoding of `error` (10_state.md R16, 60_exceptions.md R140; UNVERIFIED, log 5). -/
def errorCode : Option ErrorKind → Nat
  | none => 0
  | some .invalidOpcode => 1
  | some .divisionByZero => 2
  | some .indexFault => 3

/-- The output as bytes at a port: the ASCII codes of its characters (45_system_output.md R132; UNVERIFIED, log 5). -/
def outBytes (chars : List Char) : List Byte := chars.map fun c => BitVec.ofNat 8 c.toNat

end Sys2Proof.Machine
end

