-- ==== Sys2Proof/WellFormed.lean ====
section
/-! DEFINITION. Which instructions have all their operands in range. -/

namespace Sys2Proof

/-- Every register-index operand names one of R0 to R7 (30_encoding.md R52, R55). Address and immediate
operands are never out of range (R52). -/
abbrev Instr.WellFormed (i : Instr) : Prop :=
  ∀ b ∈ i.regOperands, b.toNat < 8

end Sys2Proof
end

