-- ==== Sys2Proof/Safety.lean ====
section
/-! DEFINITION. The terms the statements use: what stands at the program counter, runs of several steps, what a
safe run is, and the invariant of the machine's states. -/

namespace Sys2Proof

/-- The destination register operand of an instruction, the "writes" column of 10_state.md R11. -/
def Instr.dest : Instr → Option Byte
  | .loadConst reg _ => some reg
  | .move dest _ => some dest
  | .add dest _ _ => some dest
  | .sub dest _ _ => some dest
  | .mul dest _ _ => some dest
  | .div dest _ _ => some dest
  | .loadMem reg _ => some reg
  | .storeMem _ _ => none
  | .jump _ => none
  | .jumpIfZero _ _ => none
  | .jumpIfNeg _ _ => none
  | .call _ => none
  | .ret => none
  | .halt => none
  | .print _ => none

end Sys2Proof

namespace Sys2Proof.Machine

/-- What the decoder reads in the bytes from `pc` on: the longest instruction has four (30_encoding.md R50). -/
def State.decoded (s : State) : Decoded := decode (s.mem.readBytes s.pc 4)

/-- The state in which the effect of an instruction of `n` bytes runs (40_sequencer.md R72): the trace entry
appended, `pc` at the next address. -/
def State.afterFetch (s : State) (n : Nat) : State :=
  { s with
    pc := BitVec.ofNat 8 ((s.pc.toNat + n) % 256)
    trace := s.trace ++ [⟨s.pc, s.regs⟩] }

/-- A DIV with all operands in range whose divisor is zero (42_arithmetic.md R103). -/
def State.DividesByZero (s : State) (i : Instr) : Prop :=
  ∃ (dest src1 src2 : Byte) (h : src2.toNat < 8),
    i = .div dest src1 src2 ∧ i.WellFormed ∧ s.regs[src2.toNat] = 0

/-- `n` steps, stopping at the first that answers no next state. -/
def runSteps : Nat → State → Answer
  | 0, s => .next s
  | n + 1, s =>
    match step s with
    | .next t => runSteps n t
    | .fault r => .fault r
    | .refused r => .refused r

/-- The step of `s` stores to the cell `addr`: a STORE_MEM to it with its register operand in range (one out of range
stores nothing). -/
def State.StoresTo (s : State) (addr : Byte) : Prop :=
  ∃ (reg : Byte) (rest : List Byte), reg.toNat < 8 ∧ s.decoded = .instr (.storeMem addr reg) rest

/-- The step of `s` executes a CALL. -/
def State.callsNow (s : State) : Bool :=
  match s.decoded with
  | .instr (.call _) _ => true
  | _ => false

/-- The step of `s` executes a RETURN on a non-empty call stack (90_conflicts.md C8). -/
def State.returnsNow (s : State) : Bool :=
  match s.decoded with
  | .instr .ret _ => !s.cs.isEmpty
  | _ => false

/-- How many of the first `n` steps from a state satisfy a test of the state they start in. -/
def countSteps (test : State → Bool) : Nat → State → Nat
  | 0, _ => 0
  | n + 1, s =>
    match step s with
    | .next t => (test s).toNat + countSteps test n t
    | .fault _ => 0
    | .refused _ => 0

/-- A state in which no error has ended the run (10_state.md R16). A run is safe when all its states are. -/
def State.Safe (s : State) : Prop := s.runState ≠ .haltedError

/-- The invariant of the machine's states between steps (10_state.md R21, with R15, R16 and 60_exceptions.md R152).
That every register, cell, `pc` and stack entry is in 0 to 255 is in their types. -/
structure State.Inv (s : State) : Prop where
  /-- memory is in its canonical form (log 10) -/
  memory : s.mem.wf
  /-- "`error = none` exactly when `run_state` is not HaltedError" -/
  errorKind : s.error = none ↔ s.runState ≠ .haltedError
  /-- "`out` is a concatenation of decimal numerals each 0 to 255" -/
  output : ∃ vs : List Byte, s.out = vs.flatMap dec
  /-- before the first step the core is at the entry point with its reset registers -/
  origin : s.trace = [] → s.pc = 0 ∧ s.regs = Vector.replicate 8 0
  /-- "entry 0 is always `(0, (0,0,0,0,0,0,0,0))`" -/
  firstEntry : ∀ e, s.trace.head? = some e → e = ⟨0, Vector.replicate 8 0⟩

end Sys2Proof.Machine
end

