-- ==== Sys2Proof/Certificates/Slice0/Obligations.lean ====
section
/-! DEFINITION. The statements for the provers. Each docstring names the rule or section of spec/ it formalises. -/

open Sys2Proof Sys2Proof.Machine

/-! ### Encoding -/

/-- Words written out from 30_encoding.md R51 and R53, one or more of each family. The last clause is a table word as a
number, and rests on the byte order the model chose for it (first byte in bits 7 to 0; DESIGN CHOICE, log 12): the spec
gives the table's words no such order. -/
def Obligations.WordsDecodeAsTheTableSays : Prop :=
  decode [0x01, 0x03, 0xC8] = .instr (.loadConst 3 200) [] ∧
  decode [0x02, 0x05, 0x01] = .instr (.move 5 1) [] ∧
  decode [0x04, 0x02, 0x00, 0x01, 0x0E] = .instr (.sub 2 0 1) [0x0E] ∧
  decode [0x07, 0x01, 0x80] = .instr (.loadMem 1 0x80) [] ∧
  decode [0x08, 0x80, 0x00] = .instr (.storeMem 0x80 0) [] ∧
  decode [0x0A, 0x00, 0x0F] = .instr (.jumpIfZero 0 0x0F) [] ∧
  decode [0x0C, 0x08] = .instr (.call 8) [] ∧
  decode [0x0D] = .instr .ret [] ∧
  decode [0x0F, 0x07] = .instr (.print 7) [] ∧
  decode [0x00] = .illegalOpcode 0x00 ∧
  decode [0x10, 0x08, 0x08, 0x08] = .illegalOpcode 0x10 ∧
  decodeTableWord 32 0x01000203 = some (.add 2 0 1)

/-- 30_encoding.md R53: the map from the opcode byte to mnemonic, operands in fetch order and length, over all 256
values of the byte. -/
def Obligations.OpcodeByteAloneSelectsTheRow : Prop :=
  ∀ (b1 b2 b3 : Byte) (rest : List Byte),
    decode (0x01 :: b1 :: b2 :: rest) = .instr (.loadConst b1 b2) rest ∧
    decode (0x02 :: b1 :: b2 :: rest) = .instr (.move b1 b2) rest ∧
    decode (0x03 :: b1 :: b2 :: b3 :: rest) = .instr (.add b1 b2 b3) rest ∧
    decode (0x04 :: b1 :: b2 :: b3 :: rest) = .instr (.sub b1 b2 b3) rest ∧
    decode (0x05 :: b1 :: b2 :: b3 :: rest) = .instr (.mul b1 b2 b3) rest ∧
    decode (0x06 :: b1 :: b2 :: b3 :: rest) = .instr (.div b1 b2 b3) rest ∧
    decode (0x07 :: b1 :: b2 :: rest) = .instr (.loadMem b1 b2) rest ∧
    decode (0x08 :: b1 :: b2 :: rest) = .instr (.storeMem b1 b2) rest ∧
    decode (0x09 :: b1 :: rest) = .instr (.jump b1) rest ∧
    decode (0x0A :: b1 :: b2 :: rest) = .instr (.jumpIfZero b1 b2) rest ∧
    decode (0x0B :: b1 :: b2 :: rest) = .instr (.jumpIfNeg b1 b2) rest ∧
    decode (0x0C :: b1 :: rest) = .instr (.call b1) rest ∧
    decode (0x0D :: rest) = .instr .ret rest ∧
    decode (0x0E :: rest) = .instr .halt rest ∧
    decode (0x0F :: b1 :: rest) = .instr (.print b1) rest ∧
    ∀ b0 : Byte, b0.toNat = 0 ∨ 16 ≤ b0.toNat → decode (b0 :: rest) = .illegalOpcode b0

/-- Decoding and encoding are inverse to each other, for every instruction at every operand value and every byte
string (30_encoding.md sections 1 to 3): an instruction is read exactly where its own bytes stand. -/
def Obligations.DecodeInvertsEncode : Prop :=
  ∀ (bytes : List Byte) (i : Instr) (rest : List Byte),
    decode bytes = .instr i rest ↔ bytes = encode i ++ rest

/-- 30_encoding.md section 5, the derived rule on decoding as a total function of the bytes at `pc` (an inference the
spec marks as its own): at every address of every memory the opcode is illegal, or an instruction stands there whose
encoding is the bytes from that address on. -/
def Obligations.DecodingMemoryIsTotal : Prop :=
  ∀ (m : Memory) (a : Byte),
    (((m.read a).toNat = 0 ∨ 16 ≤ (m.read a).toNat) ∧ decode (m.readBytes a 4) = .illegalOpcode (m.read a)) ∨
    ((1 ≤ (m.read a).toNat ∧ (m.read a).toNat ≤ 15) ∧
      ∃ i rest, decode (m.readBytes a 4) = .instr i rest ∧ m.readBytes a i.length = encode i)

/-- Running the word the host places (log 12, the model's own convention, not the spec's): the next step of a Running
core runs the instruction the decoder reads from it, with `pc` past it. -/
def Obligations.PlacedWordIsRunNext : Prop :=
  ∀ (s : State) (nbits w : Nat) (i : Instr), s.runState = .running → decodeTableWord nbits w = some i →
    step (s.withFetchWord nbits w) = exec i ((s.withFetchWord nbits w).afterFetch i.length)

/-! ### State and memory -/

/-- 10_state.md section 12 and 70_reset_and_hazards.md section 1: the reset values. That `error` is none and `trace`
empty is an inference the spec marks as its own (log 9). -/
def Obligations.ResetLeavesEveryPieceOfStateAtItsValue : Prop :=
  (∀ r : RegIndex, State.reset.readReg r = 0) ∧ (∀ a : Byte, State.reset.mem.read a = 0) ∧
  State.reset.pc = 0 ∧ State.reset.cs = [] ∧ State.reset.out = [] ∧
  State.reset.runState = .running ∧ State.reset.error = none ∧ State.reset.trace = []

/-- 10_state.md section 2: a register write replaces the whole register and changes nothing else; the legal
indices are 0 to 7, and a byte of 8 to 255 selects no register (log 1). -/
def Obligations.RegisterWriteReplacesOneRegister : Prop :=
  ∀ (s : State) (r q : RegIndex) (v b : Byte),
    (s.writeReg r v).readReg q = (if q = r then v else s.readReg q) ∧
    s.writeReg r v = { s with regs := (s.writeReg r v).regs } ∧
    (regIndex b = some r ↔ b.toNat = r.val) ∧
    (regIndex b = none ↔ 8 ≤ b.toNat)

/-- 20_memory.md R32: a write changes its cell and nothing else, and both a data read and an instruction fetch then
yield the new value. -/
def Obligations.MemoryWriteIsSeenByReadAndFetch : Prop :=
  ∀ (s : State) (a v b : Byte),
    (s.writeMem a v).mem.read b = (if b = a then v else s.mem.read b) ∧
    s.writeMem a v = { s with mem := (s.writeMem a v).mem } ∧
    ((s.writeMem a v).setPc a).fetchByte.1 = v

/-- 20_memory.md section 1: two memories in canonical form that read alike at every address are equal (log 10, the
model's own form of memory). -/
def Obligations.CanonicalMemoriesThatReadAlikeAreEqual : Prop :=
  ∀ m m' : Memory, m.wf → m'.wf → (∀ a : Byte, m.read a = m'.read a) → m = m'

/-- 40_sequencer.md R70. -/
def Obligations.FetchByteReadsAtPcAndAdvancesIt : Prop :=
  ∀ s : State,
    s.fetchByte = (s.mem.read s.pc, { s with pc := BitVec.ofNat 8 ((s.pc.toNat + 1) % 256) })

/-! ### One step -/

/-- 40_sequencer.md R72: when lines 5 and 6 of the step (which are `exec`) run, the operand bytes are bound in fetch
order, nothing of the effect has been applied, and `pc` is the next address. -/
def Obligations.StepRunsTheDecodedInstruction : Prop :=
  ∀ (s : State) (i : Instr) (rest : List Byte), s.runState = .running →
    decode (s.mem.readBytes s.pc 4) = .instr i rest →
    s.mem.readBytes s.pc i.length = encode i ∧
    step s = exec i { s with
      pc := BitVec.ofNat 8 ((s.pc.toNat + i.length) % 256)
      trace := s.trace ++ [⟨s.pc, s.regs⟩] }

/-- 60_exceptions.md R141: any of the 241 illegal values fetched as an opcode, at any address; and no legal
instruction raises it. -/
def Obligations.IllegalOpcodeRaisesInvalidOpcode : Prop :=
  ∀ s : State, s.runState = .running →
    ((s.mem.read s.pc).toNat = 0 ∨ 16 ≤ (s.mem.read s.pc).toNat →
      step s = .next { s with
        pc := BitVec.ofNat 8 ((s.pc.toNat + 1) % 256)
        trace := s.trace ++ [⟨s.pc, s.regs⟩]
        runState := .haltedError
        error := some .invalidOpcode }) ∧
    (1 ≤ (s.mem.read s.pc).toNat ∧ (s.mem.read s.pc).toNat ≤ 15 → s.error = none →
      ∀ t, step s = .next t → t.error ≠ some .invalidOpcode)

/-- 40_sequencer.md section 2 and 60_exceptions.md section 1, the index check before the effect. It is the spec's
decision D1 (log 1); the source document leaves the behaviour open. -/
def Obligations.OutOfRangeRegisterRaisesIndexFault : Prop :=
  ∀ (s : State) (i : Instr) (rest : List Byte), s.runState = .running → s.decoded = .instr i rest →
    ¬ i.WellFormed →
    step s = .next { s with
      pc := BitVec.ofNat 8 ((s.pc.toNat + i.length) % 256)
      trace := s.trace ++ [⟨s.pc, s.regs⟩]
      runState := .haltedError
      error := some .indexFault }

/-- 60_exceptions.md R142: DIV by zero, for any dividend; and nothing else raises DivisionByZero. -/
def Obligations.OnlyDivByZeroRaisesDivisionByZero : Prop :=
  ∀ s : State, s.runState = .running →
    (∀ (i : Instr) (rest : List Byte), s.decoded = .instr i rest → s.DividesByZero i →
      step s = .next { s with
        pc := BitVec.ofNat 8 ((s.pc.toNat + 4) % 256)
        trace := s.trace ++ [⟨s.pc, s.regs⟩]
        runState := .haltedError
        error := some .divisionByZero }) ∧
    (s.error = none → ∀ t, step s = .next t → t.error = some .divisionByZero →
      ∃ i rest, s.decoded = .instr i rest ∧ s.DividesByZero i)

/-- 60_exceptions.md section 3, the order of the checks in a step: which error a step ends in is settled by the bytes
and the divisor. The order is the spec's decision D2 (log 2). -/
def Obligations.ErrorOfAStepFollowsTheOrderOfChecks : Prop :=
  ∀ s t : State, s.runState = .running → s.error = none → step s = .next t →
    (t.error = some .invalidOpcode ↔ ∃ b0, s.decoded = .illegalOpcode b0) ∧
    (t.error = some .indexFault ↔ ∃ i rest, s.decoded = .instr i rest ∧ ¬ i.WellFormed) ∧
    (t.error = some .divisionByZero ↔ ∃ i rest, s.decoded = .instr i rest ∧ s.DividesByZero i)

/-- 60_exceptions.md R147: raising an error writes `run_state` and `error` and nothing else; no step follows, and the
host reads `success = false` and the kind. -/
def Obligations.RaiseWritesRunStateAndErrorOnly : Prop :=
  ∀ (e : ErrorKind) (s : State),
    s.raise e = { s with runState := .haltedError, error := some e } ∧
    (∀ t, step (s.raise e) ≠ .next t) ∧
    (s.raise e).result.success = false ∧ (s.raise e).result.error = some e

/-- 60_exceptions.md R148: what the failing step leaves, for each kind of error. -/
def Obligations.ErrorsArePrecise : Prop :=
  ∀ s t : State, s.runState = .running → step s = .next t → t.runState = .haltedError →
    t.regs = s.regs ∧ (∀ a : Byte, t.mem.read a = s.mem.read a) ∧ t.cs = s.cs ∧ t.out = s.out ∧
    t.trace = s.trace ++ [⟨s.pc, s.regs⟩] ∧ t.result.success = false ∧
    (t.error = some .invalidOpcode ∨ t.error = some .indexFault ∨ t.error = some .divisionByZero) ∧
    (∀ b0, s.decoded = .illegalOpcode b0 → t.pc = BitVec.ofNat 8 ((s.pc.toNat + 1) % 256)) ∧
    (∀ i rest, s.decoded = .instr i rest → t.pc = BitVec.ofNat 8 ((s.pc.toNat + i.length) % 256))

/-- 40_sequencer.md R75: the four ways a step ends a run, and no other. The fourth exists by the spec's decision D1
(log 1). -/
def Obligations.ARunEndsInExactlyFourWays : Prop :=
  ∀ s t : State, s.runState = .running → s.error = none → step s = .next t →
    (∀ rest, s.decoded = .instr .halt rest →
      t.runState = .haltedOk ∧ t.error = none ∧ t.result.success = true) ∧
    (∀ b0, s.decoded = .illegalOpcode b0 →
      t.runState = .haltedError ∧ t.error = some .invalidOpcode ∧ t.result.success = false) ∧
    (∀ i rest, s.decoded = .instr i rest → s.DividesByZero i →
      t.runState = .haltedError ∧ t.error = some .divisionByZero ∧ t.result.success = false) ∧
    (∀ i rest, s.decoded = .instr i rest → ¬ i.WellFormed →
      t.runState = .haltedError ∧ t.error = some .indexFault ∧ t.result.success = false) ∧
    (∀ i rest, s.decoded = .instr i rest → i ≠ .halt → i.WellFormed → ¬ s.DividesByZero i →
      t.runState = .running ∧ t.error = none)

/-- No step leaves a Halted state (60_exceptions.md section 5), and no `load` does: that clause is no part of the rule
on the Halted states but 40_sequencer.md section 6 by the spec's decision D7 (log 6). -/
def Obligations.HaltedStatesAreTerminal : Prop :=
  ∀ s : State, s.runState = .haltedOk ∨ s.runState = .haltedError →
    (∀ t, step s ≠ .next t) ∧ (∀ image t, load image s ≠ .next t)

/-- 40_sequencer.md section 6 and its decision D7 (log 6): a core that is not Running is given no meaning, and `step`,
`run` and `load` refuse it by name. -/
def Obligations.OperationsRefuseACoreThatIsNotRunning : Prop :=
  ∀ s : State, s.runState ≠ .running →
    step s = .refused .notRunning ∧
    (∀ fuel, run fuel s = .refused .notRunning) ∧
    (∀ image, load image s = .refused .notRunning)

/-- 70_reset_and_hazards.md section 5 on liveness (an inference the spec marks as its own): from every Running state a
step is possible and completes. -/
def Obligations.ARunningCoreAlwaysSteps : Prop :=
  ∀ s : State, s.runState = .running → ∃ t, step s = .next t

/-- 60_exceptions.md section 1, the list of what raises an error: the step of an instruction with all operands in range
that is no DIV by zero completes in a state that no error has ended. -/
def Obligations.AStepWithNoCauseOfErrorStaysSafe : Prop :=
  ∀ (s : State) (i : Instr) (rest : List Byte), s.runState = .running → s.decoded = .instr i rest →
    i.WellFormed → ¬ s.DividesByZero i → ∃ t, step s = .next t ∧ t.Safe

/-! ### Data movement -/

/-- 41_data_move.md R90 (IndexFault: log 1). -/
def Obligations.LoadConstWritesTheImmediate : Prop :=
  ∀ (reg value : Byte) (s : State),
    encode (.loadConst reg value) = [0x01, reg, value] ∧
    (∀ hr : reg.toNat < 8,
      exec (.loadConst reg value) s = .next { s with regs := s.regs.set reg.toNat value hr }) ∧
    (8 ≤ reg.toNat →
      exec (.loadConst reg value) s = .next { s with runState := .haltedError, error := some .indexFault })

/-- 41_data_move.md R91 (IndexFault: log 1). -/
def Obligations.MoveCopiesARegister : Prop :=
  ∀ (dest src : Byte) (s : State),
    encode (.move dest src) = [0x02, dest, src] ∧
    (∀ (hd : dest.toNat < 8) (hs : src.toNat < 8),
      exec (.move dest src) s = .next { s with regs := s.regs.set dest.toNat s.regs[src.toNat] hd }) ∧
    (8 ≤ dest.toNat ∨ 8 ≤ src.toNat →
      exec (.move dest src) s = .next { s with runState := .haltedError, error := some .indexFault })

/-! ### Arithmetic -/

/-- 42_arithmetic.md R100 (IndexFault: log 1). -/
def Obligations.AddWritesTheSumModulo256 : Prop :=
  ∀ (dest src1 src2 : Byte) (s : State),
    encode (.add dest src1 src2) = [0x03, dest, src1, src2] ∧
    (∀ (hd : dest.toNat < 8) (h1 : src1.toNat < 8) (h2 : src2.toNat < 8),
      exec (.add dest src1 src2) s = .next { s with
        regs := s.regs.set dest.toNat
          (BitVec.ofNat 8 ((s.regs[src1.toNat].toNat + s.regs[src2.toNat].toNat) % 256)) hd }) ∧
    (8 ≤ dest.toNat ∨ 8 ≤ src1.toNat ∨ 8 ≤ src2.toNat →
      exec (.add dest src1 src2) s = .next { s with runState := .haltedError, error := some .indexFault })

/-- 42_arithmetic.md R101 (IndexFault: log 1): `a - b` when `a >= b`, `a - b + 256` when `a < b`. -/
def Obligations.SubWritesTheDifferenceModulo256 : Prop :=
  ∀ (dest src1 src2 : Byte) (s : State),
    encode (.sub dest src1 src2) = [0x04, dest, src1, src2] ∧
    (∀ (hd : dest.toNat < 8) (h1 : src1.toNat < 8) (h2 : src2.toNat < 8),
      exec (.sub dest src1 src2) s = .next { s with
        regs := s.regs.set dest.toNat
          (BitVec.ofNat 8 (if s.regs[src2.toNat].toNat ≤ s.regs[src1.toNat].toNat
            then s.regs[src1.toNat].toNat - s.regs[src2.toNat].toNat
            else s.regs[src1.toNat].toNat + 256 - s.regs[src2.toNat].toNat)) hd }) ∧
    (8 ≤ dest.toNat ∨ 8 ≤ src1.toNat ∨ 8 ≤ src2.toNat →
      exec (.sub dest src1 src2) s = .next { s with runState := .haltedError, error := some .indexFault })

/-- 42_arithmetic.md R102 (IndexFault: log 1). -/
def Obligations.MulWritesTheProductModulo256 : Prop :=
  ∀ (dest src1 src2 : Byte) (s : State),
    encode (.mul dest src1 src2) = [0x05, dest, src1, src2] ∧
    (∀ (hd : dest.toNat < 8) (h1 : src1.toNat < 8) (h2 : src2.toNat < 8),
      exec (.mul dest src1 src2) s = .next { s with
        regs := s.regs.set dest.toNat
          (BitVec.ofNat 8 ((s.regs[src1.toNat].toNat * s.regs[src2.toNat].toNat) % 256)) hd }) ∧
    (8 ≤ dest.toNat ∨ 8 ≤ src1.toNat ∨ 8 ≤ src2.toNat →
      exec (.mul dest src1 src2) s = .next { s with runState := .haltedError, error := some .indexFault })

/-- 42_arithmetic.md R103 (IndexFault, which comes before the divisor is looked at: log 1). -/
def Obligations.DivWritesTheFloorOfTheQuotient : Prop :=
  ∀ (dest src1 src2 : Byte) (s : State),
    encode (.div dest src1 src2) = [0x06, dest, src1, src2] ∧
    (∀ (hd : dest.toNat < 8) (h1 : src1.toNat < 8) (h2 : src2.toNat < 8), s.regs[src2.toNat] ≠ 0 →
      exec (.div dest src1 src2) s = .next { s with
        regs := s.regs.set dest.toNat
          (BitVec.ofNat 8 (s.regs[src1.toNat].toNat / s.regs[src2.toNat].toNat)) hd }) ∧
    (∀ (_ : dest.toNat < 8) (_ : src1.toNat < 8) (h2 : src2.toNat < 8), s.regs[src2.toNat] = 0 →
      exec (.div dest src1 src2) s =
        .next { s with runState := .haltedError, error := some .divisionByZero }) ∧
    (8 ≤ dest.toNat ∨ 8 ≤ src1.toNat ∨ 8 ≤ src2.toNat →
      exec (.div dest src1 src2) s = .next { s with runState := .haltedError, error := some .indexFault })

/-- 42_arithmetic.md R104: the results as residues of the exact integers, their agreement with two's-complement
arithmetic on the low 8 bits, the quotient as a floor, and the remainder computed with DIV, MUL and SUB; and that these
results of `x[src1]` and `x[src2]` are what the instructions write to `x[dest]`, division by zero being the only
arithmetic error. -/
def Obligations.ArithmeticIsModulo256OnUnsignedBytes : Prop :=
  (∀ a b : Byte,
    (addByte a b).toNat = (a.toNat + b.toNat) % 256 ∧
    ((subByte a b).toNat : Int) = ((a.toNat : Int) - (b.toNat : Int)) % 256 ∧
    (mulByte a b).toNat = (a.toNat * b.toNat) % 256 ∧
    addByte a b = a + b ∧ subByte a b = a - b ∧ mulByte a b = a * b ∧
    (b ≠ 0 →
      (divByte a b).toNat * b.toNat ≤ a.toNat ∧ a.toNat < ((divByte a b).toNat + 1) * b.toNat ∧
      (subByte a (mulByte (divByte a b) b)).toNat = a.toNat % b.toNat)) ∧
  ∀ (dest src1 src2 : Byte) (s : State) (hd : dest.toNat < 8) (h1 : src1.toNat < 8) (h2 : src2.toNat < 8) (a b : Byte),
    s.regs[src1.toNat] = a → s.regs[src2.toNat] = b →
    exec (.add dest src1 src2) s = .next { s with regs := s.regs.set dest.toNat (addByte a b) hd } ∧
    exec (.sub dest src1 src2) s = .next { s with regs := s.regs.set dest.toNat (subByte a b) hd } ∧
    exec (.mul dest src1 src2) s = .next { s with regs := s.regs.set dest.toNat (mulByte a b) hd } ∧
    (b ≠ 0 → exec (.div dest src1 src2) s = .next { s with regs := s.regs.set dest.toNat (divByte a b) hd }) ∧
    (b = 0 → exec (.div dest src1 src2) s =
      .next { s with runState := .haltedError, error := some .divisionByZero })

/-! ### Memory access -/

/-- 43_memory_access.md R110 (IndexFault: log 1). -/
def Obligations.LoadMemReadsTheCell : Prop :=
  ∀ (reg addr : Byte) (s : State),
    encode (.loadMem reg addr) = [0x07, reg, addr] ∧
    (∀ hr : reg.toNat < 8,
      exec (.loadMem reg addr) s = .next { s with regs := s.regs.set reg.toNat (s.mem.read addr) hr }) ∧
    (8 ≤ reg.toNat →
      exec (.loadMem reg addr) s = .next { s with runState := .haltedError, error := some .indexFault })

/-- 43_memory_access.md R111 (IndexFault: log 1). The address stored to is the `addr` operand itself. -/
def Obligations.StoreMemWritesTheCell : Prop :=
  ∀ (addr reg : Byte) (s : State),
    encode (.storeMem addr reg) = [0x08, addr, reg] ∧
    (∀ hr : reg.toNat < 8, ∃ t,
      exec (.storeMem addr reg) s = .next t ∧ t = { s with mem := t.mem } ∧
      t.mem.read addr = s.regs[reg.toNat] ∧ ∀ a : Byte, a ≠ addr → t.mem.read a = s.mem.read a) ∧
    (8 ≤ reg.toNat →
      exec (.storeMem addr reg) s = .next { s with runState := .haltedError, error := some .indexFault })

/-- 20_memory.md section 8 on self-modifying code (an inference the spec marks as its own): after the step of a
STORE_MEM, whatever bytes it overwrote, the cell holds the register's value, and still holds it after any number of
further steps none of which stores to that address: every fetch from it by the step then begun yields the value. -/
def Obligations.AStoreIsSeenByEveryLaterFetch : Prop :=
  ∀ (s t : State) (addr reg : Byte) (rest : List Byte) (hr : reg.toNat < 8), s.runState = .running →
    s.decoded = .instr (.storeMem addr reg) rest → step s = .next t →
    t.mem.read addr = s.regs[reg.toNat] ∧
    t.pc = BitVec.ofNat 8 ((s.pc.toNat + 3) % 256) ∧
    ∀ (n : Nat) (u : State), runSteps n t = .next u →
      (∀ (k : Nat) (v : State), k < n → runSteps k t = .next v → ¬ v.StoresTo addr) →
      u.mem.read addr = s.regs[reg.toNat] ∧
      ∀ w : State, w.mem = u.mem → w.pc = addr → w.fetchByte.1 = s.regs[reg.toNat]

/-! ### Control transfer -/

/-- 44_control_flow.md R120. -/
def Obligations.JumpSetsPc : Prop :=
  ∀ (addr : Byte) (s : State),
    encode (.jump addr) = [0x09, addr] ∧ exec (.jump addr) s = .next { s with pc := addr }

/-- 44_control_flow.md R121 (IndexFault: log 1). -/
def Obligations.JumpIfZeroJumpsOnZero : Prop :=
  ∀ (reg addr : Byte) (s : State),
    encode (.jumpIfZero reg addr) = [0x0A, reg, addr] ∧
    (∀ hr : reg.toNat < 8, s.regs[reg.toNat] = 0 →
      exec (.jumpIfZero reg addr) s = .next { s with pc := addr }) ∧
    (∀ hr : reg.toNat < 8, s.regs[reg.toNat] ≠ 0 → exec (.jumpIfZero reg addr) s = .next s) ∧
    (8 ≤ reg.toNat →
      exec (.jumpIfZero reg addr) s = .next { s with runState := .haltedError, error := some .indexFault })

/-- 44_control_flow.md R122 (IndexFault: log 1): taken for 128 to 255, which is bit 7 set. -/
def Obligations.JumpIfNegJumpsOnBit7 : Prop :=
  ∀ (reg addr : Byte) (s : State),
    encode (.jumpIfNeg reg addr) = [0x0B, reg, addr] ∧
    (∀ hr : reg.toNat < 8, (s.regs[reg.toNat].getLsbD 7 = true ↔ 128 ≤ s.regs[reg.toNat].toNat)) ∧
    (∀ hr : reg.toNat < 8, 128 ≤ s.regs[reg.toNat].toNat →
      exec (.jumpIfNeg reg addr) s = .next { s with pc := addr }) ∧
    (∀ hr : reg.toNat < 8, s.regs[reg.toNat].toNat < 128 → exec (.jumpIfNeg reg addr) s = .next s) ∧
    (8 ≤ reg.toNat →
      exec (.jumpIfNeg reg addr) s = .next { s with runState := .haltedError, error := some .indexFault })

/-- 44_control_flow.md R123: the effect, and in the step what is pushed is the next address `(A + 2) mod 256`. -/
def Obligations.CallPushesTheNextAddressAndJumps : Prop :=
  ∀ (addr : Byte) (s : State),
    encode (.call addr) = [0x0C, addr] ∧
    exec (.call addr) s = .next { s with cs := s.cs ++ [s.pc], pc := addr } ∧
    (∀ rest, s.runState = .running → s.decoded = .instr (.call addr) rest →
      step s = .next { s with
        cs := s.cs ++ [BitVec.ofNat 8 ((s.pc.toNat + 2) % 256)]
        pc := addr
        trace := s.trace ++ [⟨s.pc, s.regs⟩] })

/-- 44_control_flow.md R124: the last value pushed is popped into `pc`; on an empty stack there is no effect, and the
step falls through to `(A + 1) mod 256`, still Running. -/
def Obligations.ReturnPopsIntoPcOrFallsThrough : Prop :=
  ∀ s : State,
    encode .ret = [0x0D] ∧
    (∀ (l : List Byte) (v : Byte), s.cs = l ++ [v] → exec .ret s = .next { s with cs := l, pc := v }) ∧
    (s.cs = [] → exec .ret s = .next s) ∧
    (∀ rest, s.runState = .running → s.decoded = .instr .ret rest → s.cs = [] →
      step s = .next { s with
        pc := BitVec.ofNat 8 ((s.pc.toNat + 1) % 256)
        trace := s.trace ++ [⟨s.pc, s.regs⟩] })

/-! ### System and output -/

/-- 45_system_output.md R130: the effect, the whole step of a HALT, that no instruction is executed after it, and that a
step ends the run with `success = true` exactly when the instruction it executes is HALT. -/
def Obligations.HaltEndsTheRunCleanly : Prop :=
  ∀ s : State,
    encode .halt = [0x0E] ∧
    exec .halt s = .next { s with runState := .haltedOk } ∧
    (∀ t, step { s with runState := .haltedOk } ≠ .next t) ∧
    (∀ rest, s.runState = .running → s.decoded = .instr .halt rest →
      step s = .next { s with
        runState := .haltedOk
        pc := BitVec.ofNat 8 ((s.pc.toNat + 1) % 256)
        trace := s.trace ++ [⟨s.pc, s.regs⟩] }) ∧
    (∀ t, step s = .next t →
      (t.runState = .haltedOk ↔ ∃ rest, s.decoded = .instr .halt rest) ∧
      (t.result.success = true ↔ ∃ rest, s.decoded = .instr .halt rest))

/-- 45_system_output.md R131 (IndexFault: log 1), the decimal string being the library's base-ten numeral. -/
def Obligations.PrintAppendsTheDecimalNumeral : Prop :=
  ∀ (reg : Byte) (s : State),
    encode (.print reg) = [0x0F, reg] ∧
    (∀ hr : reg.toNat < 8,
      exec (.print reg) s = .next { s with out := s.out ++ Nat.toDigits 10 s.regs[reg.toNat].toNat }) ∧
    (8 ≤ reg.toNat →
      exec (.print reg) s = .next { s with runState := .haltedError, error := some .indexFault })

/-- 45_system_output.md section on `Dec`: digits only, read back as the value, no leading zeros, one to three
characters; at a port the ASCII codes 0x30 to 0x39 (decision D6, log 5). -/
def Obligations.DecIsTheBaseTenNumeral : Prop :=
  ∀ v : Byte,
    (dec v).foldl (fun n c => 10 * n + (c.toNat - '0'.toNat)) 0 = v.toNat ∧
    (∀ c ∈ dec v, '0' ≤ c ∧ c ≤ '9') ∧
    (v.toNat < 10 → (dec v).length = 1) ∧
    (10 ≤ v.toNat ∧ v.toNat < 100 → (dec v).length = 2) ∧
    (100 ≤ v.toNat → (dec v).length = 3) ∧
    ((dec v).head? = some '0' → v = 0) ∧
    (∀ b ∈ outBytes (dec v), 0x30 ≤ b.toNat ∧ b.toNat ≤ 0x39)

/-! ### Frames -/

/-- The frame of LOAD_CONST, MOVE, ADD, SUB, MUL, DIV and LOAD_MEM, the instructions with a destination register
(10_state.md section 2): they store nothing and touch no other register, `pc`, stack, output or trace; `run_state`
and `error` change only where the instruction raises an error, and then no register changes either. -/
def Obligations.FrameOfRegisterWritingInstructions : Prop :=
  ∀ (i : Instr) (dest : Byte) (s t : State), i.dest = some dest → exec i s = .next t →
    (∀ r : RegIndex, r.val ≠ dest.toNat → t.readReg r = s.readReg r) ∧
    (∀ a : Byte, t.mem.read a = s.mem.read a) ∧
    t.pc = s.pc ∧ t.cs = s.cs ∧ t.out = s.out ∧ t.trace = s.trace ∧
    ((t.runState = s.runState ∧ t.error = s.error) ∨
      (t.regs = s.regs ∧ t.runState = .haltedError ∧
        (t.error = some .indexFault ∧ ¬ i.WellFormed ∨ t.error = some .divisionByZero ∧ s.DividesByZero i)))

/-- The frame of STORE_MEM (43_memory_access.md, section on STORE_MEM): every byte but the one at its `addr` operand
reads as before, and nothing else changes; out of range it stores nothing and raises IndexFault. -/
def Obligations.FrameOfStoreMem : Prop :=
  ∀ (addr reg : Byte) (s t : State), exec (.storeMem addr reg) s = .next t →
    (∀ a : Byte, a ≠ addr ∨ 8 ≤ reg.toNat → t.mem.read a = s.mem.read a) ∧
    t.regs = s.regs ∧ t.pc = s.pc ∧ t.cs = s.cs ∧ t.out = s.out ∧ t.trace = s.trace ∧
    ((t.runState = s.runState ∧ t.error = s.error ∧ reg.toNat < 8) ∨
      (t.runState = .haltedError ∧ t.error = some .indexFault ∧ 8 ≤ reg.toNat))

/-- The frame of JUMP, JUMP_IF_ZERO, JUMP_IF_NEG, CALL and RETURN (44_control_flow.md, common rules): no register, no
byte of memory, no output; the stack changes only by CALL and RETURN; the only error is the IndexFault of a
conditional jump. -/
def Obligations.FrameOfControlTransfers : Prop :=
  ∀ (i : Instr) (s t : State),
    ((∃ addr, i = .jump addr) ∨ (∃ reg addr, i = .jumpIfZero reg addr) ∨
      (∃ reg addr, i = .jumpIfNeg reg addr) ∨ (∃ addr, i = .call addr) ∨ i = .ret) →
    exec i s = .next t →
    t.regs = s.regs ∧ (∀ a : Byte, t.mem.read a = s.mem.read a) ∧ t.out = s.out ∧ t.trace = s.trace ∧
    (t.cs = s.cs ∨ (∃ addr, i = .call addr) ∨ i = .ret) ∧
    ((t.runState = s.runState ∧ t.error = s.error) ∨
      (t.runState = .haltedError ∧ t.error = some .indexFault ∧ ¬ i.WellFormed ∧ t.pc = s.pc))

/-- The frame of HALT and PRINT (45_system_output.md): no register, no byte of memory, no `pc`, stack or trace; the
output only by PRINT, the run state only by HALT and by PRINT's IndexFault. -/
def Obligations.FrameOfHaltAndPrint : Prop :=
  ∀ (i : Instr) (s t : State), (i = .halt ∨ ∃ reg, i = .print reg) → exec i s = .next t →
    t.regs = s.regs ∧ (∀ a : Byte, t.mem.read a = s.mem.read a) ∧ t.pc = s.pc ∧ t.cs = s.cs ∧
    t.trace = s.trace ∧
    (i = .halt → t.out = s.out ∧ t.error = s.error) ∧
    (i ≠ .halt → (t.runState = s.runState ∧ t.error = s.error) ∨
      (t.out = s.out ∧ t.runState = .haltedError ∧ t.error = some .indexFault ∧ ¬ i.WellFormed))

/-! ### Rules of the whole machine -/

/-- The register, memory, stack and output each change in a step only by the instructions the spec gives that effect:
10_state.md section 2 (the "writes" column), 20_memory.md section 1 (the data-write path), 10_state.md section 4 (only
CALL pushes, only RETURN pops) and section 6 (only PRINT appends, and nothing removes a character). -/
def Obligations.EachPieceOfStateChangesOnlyByItsOwnInstructions : Prop :=
  ∀ s t : State, s.runState = .running → step s = .next t →
    (∀ r : RegIndex, t.readReg r ≠ s.readReg r →
      ∃ i rest dest, s.decoded = .instr i rest ∧ i.dest = some dest ∧ dest.toNat = r.val) ∧
    (∀ a : Byte, t.mem.read a ≠ s.mem.read a → ∃ reg rest, s.decoded = .instr (.storeMem a reg) rest) ∧
    (t.cs = s.cs ∨
      (∃ addr rest v, s.decoded = .instr (.call addr) rest ∧ t.cs = s.cs ++ [v]) ∨
      (∃ rest, s.decoded = .instr .ret rest ∧ s.cs = t.cs ++ [t.pc])) ∧
    (t.out = s.out ∨
      ∃ (reg : Byte) (rest : List Byte) (h : reg.toNat < 8), s.decoded = .instr (.print reg) rest ∧
        t.out = s.out ++ dec s.regs[reg.toNat])

/-- 10_state.md section 3 on how `pc` moves in a step: to a target by the control instructions, and to the address past
the bytes fetched in every other case, errors included. -/
def Obligations.PcMovesToTheNextAddressOrATarget : Prop :=
  ∀ s t : State, s.runState = .running → step s = .next t →
    (∀ b0, s.decoded = .illegalOpcode b0 → t.pc = BitVec.ofNat 8 ((s.pc.toNat + 1) % 256)) ∧
    (∀ i rest, s.decoded = .instr i rest → t.pc = BitVec.ofNat 8 ((s.pc.toNat + i.length) % 256) ∨
      i = .jump t.pc ∨ i = .call t.pc ∨
      (∃ (reg : Byte) (h : reg.toNat < 8), i = .jumpIfZero reg t.pc ∧ s.regs[reg.toNat] = 0) ∨
      (∃ (reg : Byte) (h : reg.toNat < 8), i = .jumpIfNeg reg t.pc ∧ 128 ≤ s.regs[reg.toNat].toNat) ∨
      (i = .ret ∧ s.cs.getLast? = some t.pc))

/-- The invariant at reset (10_state.md section 11). Its clause on the canonical form of memory is the model's DESIGN
CHOICE (log 10), and that `error` is none and the trace empty at reset is DEDUCED (log 9). -/
def Obligations.ResetSatisfiesTheInvariant : Prop := State.reset.Inv

/-- 10_state.md section 11 and 60_exceptions.md section 7: every step keeps the invariant: memory in its canonical form
(the model's DESIGN CHOICE, log 10), `error` none exactly while there is no error, the output a row of decimal numerals, the first trace entry that of the
entry point with zero registers. -/
def Obligations.EveryStepKeepsTheInvariant : Prop :=
  ∀ s t : State, s.Inv → step s = .next t → t.Inv

/-- 10_state.md section 11: `load` keeps the invariant too. The clause of the invariant on the canonical form of memory
(log 10) and a `load` between two steps of a run (log 8) are the model's DESIGN CHOICES. -/
def Obligations.LoadKeepsTheInvariant : Prop :=
  ∀ (image : List Byte) (s t : State), s.Inv → load image s = .next t → t.Inv

/-- 10_state.md section 11 with 90_conflicts.md C8: over any number of steps the stack grows by the CALLs executed and
shrinks by the RETURNs executed with a non-empty stack. -/
def Obligations.CallStackCountsTheUnmatchedCalls : Prop :=
  ∀ (n : Nat) (s t : State), runSteps n s = .next t →
    t.cs.length + countSteps State.returnsNow n s = s.cs.length + countSteps State.callsNow n s

/-- 60_exceptions.md R152: one entry a step, the failing or halting step included; entry `k` holds the `pc` and the
registers before the `k`-th step, and stays as captured; after reset and `load` entry 0 is `(0, zeros)`. -/
def Obligations.TheTraceRecordsEveryStep : Prop :=
  (∀ (n : Nat) (s t : State), runSteps n s = .next t →
    t.trace.length = s.trace.length + n ∧
    (∀ k, k < s.trace.length → t.trace[k]? = s.trace[k]?) ∧
    ∀ (k : Nat) (u : State), k < n → runSteps k s = .next u →
      t.trace[s.trace.length + k]? = some ⟨u.pc, u.regs⟩) ∧
  (∀ (image : List Byte) (n : Nat) (s t : State), load image State.reset = .next s →
    runSteps (n + 1) s = .next t → t.trace[0]? = some ⟨0, Vector.replicate 8 0⟩)

/-- 10_state.md sections 6 and 8: no rule's outcome depends on the trace, and no instruction reads the output buffer.
Two states that differ only in those run alike, each appending the same entries and characters to its own. -/
def Obligations.TraceAndOutputDoNotInfluenceExecution : Prop :=
  ∀ (n : Nat) (s t : State) (trace : List TraceEntry) (out : List Char), runSteps n s = .next t →
    ∃ dt dout, t.trace = s.trace ++ dt ∧ t.out = s.out ++ dout ∧
      runSteps n { s with trace := trace, out := out } = .next { t with trace := trace ++ dt, out := out ++ dout }

/-- 44_control_flow.md, corner case of JUMP, and 40_sequencer.md section 4 on runs that never end: a Running core whose
`pc` stands on a JUMP to itself is Running there after any number of steps. -/
def Obligations.AJumpToItselfRunsForever : Prop :=
  ∀ (s : State) (rest : List Byte), s.runState = .running → s.decoded = .instr (.jump s.pc) rest →
    ∀ n : Nat, ∃ t, runSteps n s = .next { s with trace := t } ∧ t.length = s.trace.length + n

/-! ### The host interface -/

/-- 20_memory.md R42, on a Running core (40_sequencer.md section 6; log 6). -/
def Obligations.LoadCopiesTheImageFromAddressZero : Prop :=
  ∀ (image : List Byte) (s : State), s.runState = .running → image.length ≤ 256 →
    ∃ t, load image s = .next t ∧ t = { s with mem := t.mem, pc := 0 } ∧
      (∀ (k : Nat) (h : k < image.length), t.mem.read (BitVec.ofNat 8 k) = image[k]) ∧
      (∀ a : Byte, image.length ≤ a.toNat → t.mem.read a = s.mem.read a)

/-- 20_memory.md section 9 on a failed `load`, by the spec's decision D8 (log 7): the answer is the failure alone, and
no changed core comes with it. -/
def Obligations.LoadOfTooLongAnImageFails : Prop :=
  ∀ (image : List Byte) (s : State), s.runState = .running → 256 < image.length →
    load image s = .fault .loadTooLarge

/-- 40_sequencer.md section 5: the record is the read-out of the state in which the run ended, reached by steps. The fuel
that bounds the run and the number of those steps is the model's (DESIGN CHOICE, log 4), as is the clause of the
invariant on the canonical form of memory (log 10). -/
def Obligations.RunYieldsTheResultOfTheHaltedState : Prop :=
  ∀ (fuel : Nat) (s : State) (r : ExecutionResult), s.Inv → run fuel s = .ended r →
    ∃ (n : Nat) (t : State), n ≤ fuel ∧ runSteps n s = .next t ∧ t.runState ≠ .running ∧
      r.registers = t.regs ∧ r.output = t.out ∧ r.trace = t.trace ∧ r.error = t.error ∧
      (r.success = true ↔ t.runState = .haltedOk) ∧ (r.error = none ↔ r.success = true)

/-- 40_sequencer.md section 4 on fuel (log 4): a run either ends within the fuel or is still Running when the fuel is
gone, one trace entry for each step; it never faults and, from a Running core, is never refused. -/
def Obligations.RunEndsOrUsesAllItsFuel : Prop :=
  ∀ (fuel : Nat) (s : State), s.runState = .running →
    (∃ r, run fuel s = .ended r) ∨
    (∃ t, run fuel s = .outOfFuel t ∧ t.runState = .running ∧ runSteps fuel s = .next t ∧
      t.trace.length = s.trace.length + fuel)

/-- 40_sequencer.md section 4 on fuel (log 4): the record of a run that ended does not depend on the fuel. -/
def Obligations.ResultDoesNotDependOnFuel : Prop :=
  ∀ (fuel more : Nat) (s : State) (r : ExecutionResult), run fuel s = .ended r → run (fuel + more) s = .ended r
end

