-- ==== Sys2Proof/Laws/Operands.lean ====
section
/-! SUPPORT. The index check: what it answers in range and out of range. -/

namespace Sys2Proof.Machine

theorem regIndex_of_lt (b : Byte) (h : b.toNat < 8) : regIndex b = some ⟨b.toNat, h⟩ := by
  simp [regIndex, regIndexUnder, h]

theorem regIndex_of_ge (b : Byte) (h : 8 ≤ b.toNat) : regIndex b = none := by
  simp [regIndex, regIndexUnder, Nat.not_lt.2 h]

theorem withReg_of_lt (b : Byte) (s : State) (k : RegIndex → Answer) (h : b.toNat < 8) :
    withReg b s k = k ⟨b.toNat, h⟩ := by
  simp [withReg, regIndex_of_lt b h]

theorem withReg_of_ge (b : Byte) (s : State) (k : RegIndex → Answer) (h : 8 ≤ b.toNat) :
    withReg b s k = .next (s.raise .indexFault) := by
  simp [withReg, regIndex_of_ge b h]

theorem withReg2_of_lt (b1 b2 : Byte) (s : State) (k : RegIndex → RegIndex → Answer)
    (h1 : b1.toNat < 8) (h2 : b2.toNat < 8) :
    withReg2 b1 b2 s k = k ⟨b1.toNat, h1⟩ ⟨b2.toNat, h2⟩ := by
  simp [withReg2, withReg_of_lt _ _ _ h1, withReg_of_lt _ _ _ h2]

theorem withReg2_of_ge (b1 b2 : Byte) (s : State) (k : RegIndex → RegIndex → Answer)
    (h : 8 ≤ b1.toNat ∨ 8 ≤ b2.toNat) : withReg2 b1 b2 s k = .next (s.raise .indexFault) := by
  unfold withReg2
  by_cases h1 : b1.toNat < 8
  · rw [withReg_of_lt _ _ _ h1, withReg_of_ge _ _ _ (by omega)]
  · rw [withReg_of_ge _ _ _ (by omega)]

theorem withReg3_of_lt (b1 b2 b3 : Byte) (s : State) (k : RegIndex → RegIndex → RegIndex → Answer)
    (h1 : b1.toNat < 8) (h2 : b2.toNat < 8) (h3 : b3.toNat < 8) :
    withReg3 b1 b2 b3 s k = k ⟨b1.toNat, h1⟩ ⟨b2.toNat, h2⟩ ⟨b3.toNat, h3⟩ := by
  simp [withReg3, withReg_of_lt _ _ _ h1, withReg_of_lt _ _ _ h2, withReg_of_lt _ _ _ h3]

theorem withReg3_of_ge (b1 b2 b3 : Byte) (s : State) (k : RegIndex → RegIndex → RegIndex → Answer)
    (h : 8 ≤ b1.toNat ∨ 8 ≤ b2.toNat ∨ 8 ≤ b3.toNat) :
    withReg3 b1 b2 b3 s k = .next (s.raise .indexFault) := by
  unfold withReg3
  by_cases h1 : b1.toNat < 8
  · rw [withReg_of_lt _ _ _ h1]
    by_cases h2 : b2.toNat < 8
    · rw [withReg_of_lt _ _ _ h2, withReg_of_ge _ _ _ (by omega)]
    · rw [withReg_of_ge _ _ _ (by omega)]
  · rw [withReg_of_ge _ _ _ (by omega)]

/-- Everything the one-operand check can do. -/
theorem withReg_cases (b : Byte) (s : State) (k : RegIndex → Answer) :
    (∃ h : b.toNat < 8, withReg b s k = k ⟨b.toNat, h⟩) ∨
      (8 ≤ b.toNat ∧ withReg b s k = .next (s.raise .indexFault)) := by
  by_cases h : b.toNat < 8
  · exact .inl ⟨h, withReg_of_lt b s k h⟩
  · exact .inr ⟨by omega, withReg_of_ge b s k (by omega)⟩

/-- Everything the two-operand check can do. -/
theorem withReg2_cases (b1 b2 : Byte) (s : State) (k : RegIndex → RegIndex → Answer) :
    (∃ (h1 : b1.toNat < 8) (h2 : b2.toNat < 8), withReg2 b1 b2 s k = k ⟨b1.toNat, h1⟩ ⟨b2.toNat, h2⟩) ∨
      ((8 ≤ b1.toNat ∨ 8 ≤ b2.toNat) ∧ withReg2 b1 b2 s k = .next (s.raise .indexFault)) := by
  by_cases h : b1.toNat < 8 ∧ b2.toNat < 8
  · exact .inl ⟨h.1, h.2, withReg2_of_lt b1 b2 s k h.1 h.2⟩
  · have h' : 8 ≤ b1.toNat ∨ 8 ≤ b2.toNat := by omega
    exact .inr ⟨h', withReg2_of_ge b1 b2 s k h'⟩

/-- Everything the three-operand check can do. -/
theorem withReg3_cases (b1 b2 b3 : Byte) (s : State) (k : RegIndex → RegIndex → RegIndex → Answer) :
    (∃ (h1 : b1.toNat < 8) (h2 : b2.toNat < 8) (h3 : b3.toNat < 8),
        withReg3 b1 b2 b3 s k = k ⟨b1.toNat, h1⟩ ⟨b2.toNat, h2⟩ ⟨b3.toNat, h3⟩) ∨
      ((8 ≤ b1.toNat ∨ 8 ≤ b2.toNat ∨ 8 ≤ b3.toNat) ∧ withReg3 b1 b2 b3 s k = .next (s.raise .indexFault)) := by
  by_cases h : b1.toNat < 8 ∧ b2.toNat < 8 ∧ b3.toNat < 8
  · exact .inl ⟨h.1, h.2.1, h.2.2, withReg3_of_lt b1 b2 b3 s k h.1 h.2.1 h.2.2⟩
  · have h' : 8 ≤ b1.toNat ∨ 8 ≤ b2.toNat ∨ 8 ≤ b3.toNat := by omega
    exact .inr ⟨h', withReg3_of_ge b1 b2 b3 s k h'⟩

end Sys2Proof.Machine
end

