-- ==== Sys2Proof/Laws/State.lean ====
section
/-! SUPPORT. One lemma per field of State and named update, so that no proof unfolds a record update. -/

namespace Sys2Proof.Machine

@[simp] theorem writeReg_regs (s : State) (r : RegIndex) (v : Byte) : (s.writeReg r v).regs = s.regs.set r v := rfl
@[simp] theorem writeReg_mem (s : State) (r : RegIndex) (v : Byte) : (s.writeReg r v).mem = s.mem := rfl
@[simp] theorem writeReg_pc (s : State) (r : RegIndex) (v : Byte) : (s.writeReg r v).pc = s.pc := rfl
@[simp] theorem writeReg_cs (s : State) (r : RegIndex) (v : Byte) : (s.writeReg r v).cs = s.cs := rfl
@[simp] theorem writeReg_out (s : State) (r : RegIndex) (v : Byte) : (s.writeReg r v).out = s.out := rfl
@[simp] theorem writeReg_runState (s : State) (r : RegIndex) (v : Byte) : (s.writeReg r v).runState = s.runState := rfl
@[simp] theorem writeReg_error (s : State) (r : RegIndex) (v : Byte) : (s.writeReg r v).error = s.error := rfl
@[simp] theorem writeReg_trace (s : State) (r : RegIndex) (v : Byte) : (s.writeReg r v).trace = s.trace := rfl

@[simp] theorem setPc_regs (s : State) (t : Byte) : (s.setPc t).regs = s.regs := rfl
@[simp] theorem setPc_mem (s : State) (t : Byte) : (s.setPc t).mem = s.mem := rfl
@[simp] theorem setPc_pc (s : State) (t : Byte) : (s.setPc t).pc = t := rfl
@[simp] theorem setPc_cs (s : State) (t : Byte) : (s.setPc t).cs = s.cs := rfl
@[simp] theorem setPc_out (s : State) (t : Byte) : (s.setPc t).out = s.out := rfl
@[simp] theorem setPc_runState (s : State) (t : Byte) : (s.setPc t).runState = s.runState := rfl
@[simp] theorem setPc_error (s : State) (t : Byte) : (s.setPc t).error = s.error := rfl
@[simp] theorem setPc_trace (s : State) (t : Byte) : (s.setPc t).trace = s.trace := rfl

@[simp] theorem writeMem_regs (s : State) (a v : Byte) : (s.writeMem a v).regs = s.regs := rfl
@[simp] theorem writeMem_mem (s : State) (a v : Byte) : (s.writeMem a v).mem = s.mem.write a v := rfl
@[simp] theorem writeMem_pc (s : State) (a v : Byte) : (s.writeMem a v).pc = s.pc := rfl
@[simp] theorem writeMem_cs (s : State) (a v : Byte) : (s.writeMem a v).cs = s.cs := rfl
@[simp] theorem writeMem_out (s : State) (a v : Byte) : (s.writeMem a v).out = s.out := rfl
@[simp] theorem writeMem_runState (s : State) (a v : Byte) : (s.writeMem a v).runState = s.runState := rfl
@[simp] theorem writeMem_error (s : State) (a v : Byte) : (s.writeMem a v).error = s.error := rfl
@[simp] theorem writeMem_trace (s : State) (a v : Byte) : (s.writeMem a v).trace = s.trace := rfl

@[simp] theorem push_regs (s : State) (v : Byte) : (s.push v).regs = s.regs := rfl
@[simp] theorem push_mem (s : State) (v : Byte) : (s.push v).mem = s.mem := rfl
@[simp] theorem push_pc (s : State) (v : Byte) : (s.push v).pc = s.pc := rfl
@[simp] theorem push_cs (s : State) (v : Byte) : (s.push v).cs = s.cs ++ [v] := rfl
@[simp] theorem push_out (s : State) (v : Byte) : (s.push v).out = s.out := rfl
@[simp] theorem push_runState (s : State) (v : Byte) : (s.push v).runState = s.runState := rfl
@[simp] theorem push_error (s : State) (v : Byte) : (s.push v).error = s.error := rfl
@[simp] theorem push_trace (s : State) (v : Byte) : (s.push v).trace = s.trace := rfl

@[simp] theorem outAppend_regs (s : State) (cs : List Char) : (s.outAppend cs).regs = s.regs := rfl
@[simp] theorem outAppend_mem (s : State) (cs : List Char) : (s.outAppend cs).mem = s.mem := rfl
@[simp] theorem outAppend_pc (s : State) (cs : List Char) : (s.outAppend cs).pc = s.pc := rfl
@[simp] theorem outAppend_cs (s : State) (cs : List Char) : (s.outAppend cs).cs = s.cs := rfl
@[simp] theorem outAppend_out (s : State) (cs : List Char) : (s.outAppend cs).out = s.out ++ cs := rfl
@[simp] theorem outAppend_runState (s : State) (cs : List Char) : (s.outAppend cs).runState = s.runState := rfl
@[simp] theorem outAppend_error (s : State) (cs : List Char) : (s.outAppend cs).error = s.error := rfl
@[simp] theorem outAppend_trace (s : State) (cs : List Char) : (s.outAppend cs).trace = s.trace := rfl

@[simp] theorem traceAppend_regs (s : State) : (s.traceAppend).regs = s.regs := rfl
@[simp] theorem traceAppend_mem (s : State) : (s.traceAppend).mem = s.mem := rfl
@[simp] theorem traceAppend_pc (s : State) : (s.traceAppend).pc = s.pc := rfl
@[simp] theorem traceAppend_cs (s : State) : (s.traceAppend).cs = s.cs := rfl
@[simp] theorem traceAppend_out (s : State) : (s.traceAppend).out = s.out := rfl
@[simp] theorem traceAppend_runState (s : State) : (s.traceAppend).runState = s.runState := rfl
@[simp] theorem traceAppend_error (s : State) : (s.traceAppend).error = s.error := rfl
@[simp] theorem traceAppend_trace (s : State) : (s.traceAppend).trace = s.trace ++ [⟨s.pc, s.regs⟩] := rfl

@[simp] theorem haltOk_regs (s : State) : (s.haltOk).regs = s.regs := rfl
@[simp] theorem haltOk_mem (s : State) : (s.haltOk).mem = s.mem := rfl
@[simp] theorem haltOk_pc (s : State) : (s.haltOk).pc = s.pc := rfl
@[simp] theorem haltOk_cs (s : State) : (s.haltOk).cs = s.cs := rfl
@[simp] theorem haltOk_out (s : State) : (s.haltOk).out = s.out := rfl
@[simp] theorem haltOk_runState (s : State) : (s.haltOk).runState = .haltedOk := rfl
@[simp] theorem haltOk_error (s : State) : (s.haltOk).error = s.error := rfl
@[simp] theorem haltOk_trace (s : State) : (s.haltOk).trace = s.trace := rfl

@[simp] theorem raise_regs (s : State) (e : ErrorKind) : (s.raise e).regs = s.regs := rfl
@[simp] theorem raise_mem (s : State) (e : ErrorKind) : (s.raise e).mem = s.mem := rfl
@[simp] theorem raise_pc (s : State) (e : ErrorKind) : (s.raise e).pc = s.pc := rfl
@[simp] theorem raise_cs (s : State) (e : ErrorKind) : (s.raise e).cs = s.cs := rfl
@[simp] theorem raise_out (s : State) (e : ErrorKind) : (s.raise e).out = s.out := rfl
@[simp] theorem raise_runState (s : State) (e : ErrorKind) : (s.raise e).runState = .haltedError := rfl
@[simp] theorem raise_error (s : State) (e : ErrorKind) : (s.raise e).error = some e := rfl
@[simp] theorem raise_trace (s : State) (e : ErrorKind) : (s.raise e).trace = s.trace := rfl

@[simp] theorem placeAtPc_regs (s : State) (bytes : List Byte) : (placeAtPc bytes s).regs = s.regs := rfl
@[simp] theorem placeAtPc_mem (s : State) (bytes : List Byte) : (placeAtPc bytes s).mem = s.mem.writeBytes s.pc bytes := rfl
@[simp] theorem placeAtPc_pc (s : State) (bytes : List Byte) : (placeAtPc bytes s).pc = s.pc := rfl
@[simp] theorem placeAtPc_cs (s : State) (bytes : List Byte) : (placeAtPc bytes s).cs = s.cs := rfl
@[simp] theorem placeAtPc_out (s : State) (bytes : List Byte) : (placeAtPc bytes s).out = s.out := rfl
@[simp] theorem placeAtPc_runState (s : State) (bytes : List Byte) : (placeAtPc bytes s).runState = s.runState := rfl
@[simp] theorem placeAtPc_error (s : State) (bytes : List Byte) : (placeAtPc bytes s).error = s.error := rfl
@[simp] theorem placeAtPc_trace (s : State) (bytes : List Byte) : (placeAtPc bytes s).trace = s.trace := rfl

@[simp] theorem afterFetch_regs (s : State) (n : Nat) : (s.afterFetch n).regs = s.regs := rfl
@[simp] theorem afterFetch_mem (s : State) (n : Nat) : (s.afterFetch n).mem = s.mem := rfl
@[simp] theorem afterFetch_pc (s : State) (n : Nat) : (s.afterFetch n).pc = BitVec.ofNat 8 ((s.pc.toNat + n) % 256) := rfl
@[simp] theorem afterFetch_cs (s : State) (n : Nat) : (s.afterFetch n).cs = s.cs := rfl
@[simp] theorem afterFetch_out (s : State) (n : Nat) : (s.afterFetch n).out = s.out := rfl
@[simp] theorem afterFetch_runState (s : State) (n : Nat) : (s.afterFetch n).runState = s.runState := rfl
@[simp] theorem afterFetch_error (s : State) (n : Nat) : (s.afterFetch n).error = s.error := rfl
@[simp] theorem afterFetch_trace (s : State) (n : Nat) : (s.afterFetch n).trace = s.trace ++ [⟨s.pc, s.regs⟩] := rfl

@[simp] theorem popToPc_regs (s : State) : s.popToPc.regs = s.regs := by
  unfold State.popToPc; split <;> rfl
@[simp] theorem popToPc_mem (s : State) : s.popToPc.mem = s.mem := by
  unfold State.popToPc; split <;> rfl
@[simp] theorem popToPc_out (s : State) : s.popToPc.out = s.out := by
  unfold State.popToPc; split <;> rfl
@[simp] theorem popToPc_runState (s : State) : s.popToPc.runState = s.runState := by
  unfold State.popToPc; split <;> rfl
@[simp] theorem popToPc_error (s : State) : s.popToPc.error = s.error := by
  unfold State.popToPc; split <;> rfl
@[simp] theorem popToPc_trace (s : State) : s.popToPc.trace = s.trace := by
  unfold State.popToPc; split <;> rfl

/-- RETURN's pop on an empty stack changes nothing. -/
theorem popToPc_nil (s : State) (h : s.cs = []) : s.popToPc = s := by
  simp [State.popToPc, h]

/-- RETURN's pop takes the last element into `pc`. -/
theorem popToPc_concat (s : State) (l : List Byte) (v : Byte) (h : s.cs = l ++ [v]) :
    s.popToPc = { s with cs := l, pc := v } := by
  simp [State.popToPc, h]

@[simp] theorem fetchByte_fst (s : State) : s.fetchByte.1 = s.mem.read s.pc := rfl

@[simp] theorem fetchByte_snd (s : State) : s.fetchByte.2 = s.setPc (s.pc + 1) := rfl

@[simp] theorem setPc_setPc (s : State) (t u : Byte) : (s.setPc t).setPc u = s.setPc u := rfl

/-- A checked register-index byte reads the register of its number. -/
@[simp] theorem readReg_mk (s : State) (n : Nat) (h : n < 8) : s.readReg ⟨n, h⟩ = s.regs[n] := by
  simp [State.readReg]

/-- A register write is read back, and leaves every other register alone. -/
theorem readReg_writeReg (s : State) (r q : RegIndex) (v : Byte) :
    (s.writeReg r v).readReg q = if q = r then v else s.readReg q := by
  by_cases h : q = r
  · subst h; simp [State.readReg]
  · have : (r : Nat) ≠ (q : Nat) := fun e => h (Fin.ext e.symm)
    simp [State.readReg, h, this]

end Sys2Proof.Machine
end

