-- ==== Sys2Proof/Laws/Exec.lean ====
section
/-! SUPPORT. What the effect of any instruction can do, said once. -/

namespace Sys2Proof.Machine

/-- An index check whose effect always answers a next state answers one. -/
theorem withReg_next (b : Byte) (s : State) (k : RegIndex → Answer) (h : ∀ r, ∃ t, k r = .next t) :
    ∃ t, withReg b s k = .next t := by
  rcases withReg_cases b s k with ⟨hb, e⟩ | ⟨_, e⟩
  · rw [e]; exact h _
  · exact ⟨_, e⟩

/-- No meaning faults or refuses. -/
theorem exec_next (i : Instr) (s : State) : ∃ t, exec i s = .next t := by
  cases i <;> simp only [exec, execLoadConst, execMove, execAdd, execSub, execMul, execDiv, execLoadMem, execStoreMem,
    execJump, execJumpIfZero, execJumpIfNeg, execCall, execRet, execHalt, execPrint, withReg2, withReg3]
  case div =>
    refine withReg_next _ _ _ fun _ => withReg_next _ _ _ fun _ => withReg_next _ _ _ fun _ => ?_
    split <;> exact ⟨_, rfl⟩
  all_goals
    first
    | exact ⟨_, rfl⟩
    | exact withReg_next _ _ _ fun _ => ⟨_, rfl⟩
    | exact withReg_next _ _ _ fun _ => withReg_next _ _ _ fun _ => ⟨_, rfl⟩
    | exact withReg_next _ _ _ fun _ => withReg_next _ _ _ fun _ => withReg_next _ _ _ fun _ => ⟨_, rfl⟩

/-- The kinds of effect: `Effect i s t` says which named update takes `s` to `t` when `i` runs, and why. -/
inductive Effect (i : Instr) (s : State) : State → Prop
  /-- the index check raises IndexFault -/
  | indexFault : ¬ i.WellFormed → Effect i s (s.raise .indexFault)
  /-- DIV raises DivisionByZero -/
  | divisionByZero : s.DividesByZero i → Effect i s (s.raise .divisionByZero)
  /-- the destination register is written -/
  | writes (dest v : Byte) (hd : dest.toNat < 8) : i.dest = some dest → i.WellFormed → ¬ s.DividesByZero i →
      Effect i s (s.writeReg ⟨dest.toNat, hd⟩ v)
  /-- STORE_MEM writes a cell -/
  | stores (addr reg : Byte) (hr : reg.toNat < 8) : i = .storeMem addr reg →
      Effect i s (s.writeMem addr s.regs[reg.toNat])
  /-- JUMP -/
  | jumps (addr : Byte) : i = .jump addr → Effect i s (s.setPc addr)
  /-- JUMP_IF_ZERO, taken -/
  | jumpsOnZero (reg addr : Byte) (hr : reg.toNat < 8) : i = .jumpIfZero reg addr → s.regs[reg.toNat] = 0 →
      Effect i s (s.setPc addr)
  /-- JUMP_IF_NEG, taken -/
  | jumpsOnNeg (reg addr : Byte) (hr : reg.toNat < 8) : i = .jumpIfNeg reg addr → 128 ≤ s.regs[reg.toNat].toNat →
      Effect i s (s.setPc addr)
  /-- JUMP_IF_ZERO or JUMP_IF_NEG, not taken -/
  | fallsThrough (reg addr : Byte) : reg.toNat < 8 → i = .jumpIfZero reg addr ∨ i = .jumpIfNeg reg addr → Effect i s s
  /-- CALL -/
  | calls (addr : Byte) : i = .call addr → Effect i s ((s.push s.pc).setPc addr)
  /-- RETURN -/
  | returns : i = .ret → Effect i s s.popToPc
  /-- HALT -/
  | halts : i = .halt → Effect i s s.haltOk
  /-- PRINT -/
  | prints (reg : Byte) (hr : reg.toNat < 8) : i = .print reg → Effect i s (s.outAppend (dec s.regs[reg.toNat]))

theorem wellFormed_one {b : Byte} {i : Instr} (h : i.regOperands = [b]) : i.WellFormed ↔ b.toNat < 8 := by
  simp [Instr.WellFormed, h]

theorem wellFormed_two {b1 b2 : Byte} {i : Instr} (h : i.regOperands = [b1, b2]) :
    i.WellFormed ↔ b1.toNat < 8 ∧ b2.toNat < 8 := by
  simp [Instr.WellFormed, h]

theorem wellFormed_three {b1 b2 b3 : Byte} {i : Instr} (h : i.regOperands = [b1, b2, b3]) :
    i.WellFormed ↔ b1.toNat < 8 ∧ b2.toNat < 8 ∧ b3.toNat < 8 := by
  simp [Instr.WellFormed, h]

/-- An instruction that is no DIV divides by nothing. -/
theorem not_dividesByZero {s : State} {i : Instr} (h : ∀ d a b, i ≠ .div d a b) : ¬ s.DividesByZero i := by
  rintro ⟨d, a, b, _, e, _⟩; exact h _ _ _ e

/-- The test of JUMP_IF_NEG is that the value is 128 or more. -/
theorem isNeg_iff : ∀ v : Byte, isNeg v = true ↔ 128 ≤ v.toNat := by decide

/-- The test of JUMP_IF_ZERO is that the value is 0. -/
theorem isZero_iff (v : Byte) : isZero v = true ↔ v = 0 := by simp [isZero]

theorem effect_of_withReg {i : Instr} {b : Byte} {s t : State} {k : RegIndex → Answer} (hi : i.regOperands = [b])
    (h : withReg b s k = .next t) (hk : ∀ hb : b.toNat < 8, k ⟨b.toNat, hb⟩ = .next t → Effect i s t) :
    Effect i s t := by
  rcases withReg_cases b s k with ⟨hb, e⟩ | ⟨hb, e⟩
  · exact hk hb (e ▸ h)
  · cases e.symm.trans h; exact .indexFault (by rw [wellFormed_one hi]; omega)

theorem effect_of_withReg2 {i : Instr} {b1 b2 : Byte} {s t : State} {k : RegIndex → RegIndex → Answer}
    (hi : i.regOperands = [b1, b2]) (h : withReg2 b1 b2 s k = .next t)
    (hk : ∀ (h1 : b1.toNat < 8) (h2 : b2.toNat < 8), k ⟨b1.toNat, h1⟩ ⟨b2.toNat, h2⟩ = .next t → Effect i s t) :
    Effect i s t := by
  rcases withReg2_cases b1 b2 s k with ⟨h1, h2, e⟩ | ⟨hb, e⟩
  · exact hk h1 h2 (e ▸ h)
  · cases e.symm.trans h; exact .indexFault (by rw [wellFormed_two hi]; omega)

theorem effect_of_withReg3 {i : Instr} {b1 b2 b3 : Byte} {s t : State} {k : RegIndex → RegIndex → RegIndex → Answer}
    (hi : i.regOperands = [b1, b2, b3]) (h : withReg3 b1 b2 b3 s k = .next t)
    (hk : ∀ (h1 : b1.toNat < 8) (h2 : b2.toNat < 8) (h3 : b3.toNat < 8),
      k ⟨b1.toNat, h1⟩ ⟨b2.toNat, h2⟩ ⟨b3.toNat, h3⟩ = .next t → Effect i s t) :
    Effect i s t := by
  rcases withReg3_cases b1 b2 b3 s k with ⟨h1, h2, h3, e⟩ | ⟨hb, e⟩
  · exact hk h1 h2 h3 (e ▸ h)
  · cases e.symm.trans h; exact .indexFault (by rw [wellFormed_three hi]; omega)

/-- Everything an instruction can do: its effect is one of the kinds above. -/
theorem exec_effect (i : Instr) (s t : State) (h : exec i s = .next t) : Effect i s t := by
  cases i with
  | loadConst reg value =>
    refine effect_of_withReg rfl h fun hr e => ?_
    cases e
    exact .writes reg _ hr rfl ((wellFormed_one rfl).2 hr) (not_dividesByZero (by simp))
  | move dest src =>
    refine effect_of_withReg2 rfl h fun hd hs e => ?_
    cases e
    exact .writes dest _ hd rfl ((wellFormed_two rfl).2 ⟨hd, hs⟩) (not_dividesByZero (by simp))
  | add dest src1 src2 =>
    refine effect_of_withReg3 rfl h fun hd h1 h2 e => ?_
    cases e
    exact .writes dest _ hd rfl ((wellFormed_three rfl).2 ⟨hd, h1, h2⟩) (not_dividesByZero (by simp))
  | sub dest src1 src2 =>
    refine effect_of_withReg3 rfl h fun hd h1 h2 e => ?_
    cases e
    exact .writes dest _ hd rfl ((wellFormed_three rfl).2 ⟨hd, h1, h2⟩) (not_dividesByZero (by simp))
  | mul dest src1 src2 =>
    refine effect_of_withReg3 rfl h fun hd h1 h2 e => ?_
    cases e
    exact .writes dest _ hd rfl ((wellFormed_three rfl).2 ⟨hd, h1, h2⟩) (not_dividesByZero (by simp))
  | div dest src1 src2 =>
    refine effect_of_withReg3 rfl h fun hd h1 h2 e => ?_
    have hw : (Instr.div dest src1 src2).WellFormed := (wellFormed_three rfl).2 ⟨hd, h1, h2⟩
    by_cases hz : s.readReg ⟨src2.toNat, h2⟩ = 0
    · rw [if_pos hz] at e; cases e
      exact .divisionByZero ⟨dest, src1, src2, h2, rfl, hw, by simpa using hz⟩
    · rw [if_neg hz] at e; cases e
      refine .writes dest _ hd rfl hw ?_
      rintro ⟨_, _, _, _, e, _, hz'⟩
      cases e; exact hz (by simpa using hz')
  | loadMem reg addr =>
    refine effect_of_withReg rfl h fun hr e => ?_
    cases e
    exact .writes reg _ hr rfl ((wellFormed_one rfl).2 hr) (not_dividesByZero (by simp))
  | storeMem addr reg =>
    refine effect_of_withReg rfl h fun hr e => ?_
    cases e
    rw [readReg_mk]; exact .stores addr reg hr rfl
  | jump addr => cases h; exact .jumps addr rfl
  | jumpIfZero reg addr =>
    refine effect_of_withReg rfl h fun hr e => ?_
    split at e <;> cases e
    · next hz => exact .jumpsOnZero reg addr hr rfl (by simpa [isZero_iff] using hz)
    · exact .fallsThrough reg addr hr (.inl rfl)
  | jumpIfNeg reg addr =>
    refine effect_of_withReg rfl h fun hr e => ?_
    split at e <;> cases e
    · next hn => exact .jumpsOnNeg reg addr hr rfl (by simpa [isNeg_iff] using hn)
    · exact .fallsThrough reg addr hr (.inr rfl)
  | call addr => cases h; exact .calls addr rfl
  | ret => cases h; exact .returns rfl
  | halt => cases h; exact .halts rfl
  | print reg =>
    refine effect_of_withReg rfl h fun hr e => ?_
    cases e
    rw [readReg_mk]; exact .prints reg hr rfl

end Sys2Proof.Machine
end

