-- ==== Sys2Proof/Laws/Memory.lean ====
section
/-! SUPPORT. Memory: read after write, and every operation keeps the canonical form. -/

namespace Sys2Proof.Machine

@[simp] theorem read_nil (a : Byte) : Memory.read [] a = Memory.unlisted := rfl

theorem read_cons (c : Host.Cell) (m : Memory) (a : Byte) :
    Memory.read (c :: m) a = if c.1 = a.toNat then c.2 else Memory.read m a := rfl

theorem read_insert (m : Memory) (k : Nat) (v : Byte) (b : Byte) :
    Memory.read (Memory.insert k v m) b = if k = b.toNat then v else Memory.read m b := by
  induction m with
  | nil => rfl
  | cons c m ih =>
    obtain ⟨k', v'⟩ := c
    simp only [Memory.insert]
    split
    · next hlt =>
      rw [read_cons, read_cons, ih]
      by_cases hk : k = b.toNat
      · simp [hk, show k' ≠ b.toNat by omega]
      · simp [hk]
    · split
      · next heq => subst heq; by_cases hk : k' = b.toNat <;> simp [read_cons, hk]
      · simp [read_cons]

theorem read_erase (m : Memory) (k : Nat) (b : Byte) :
    Memory.read (Memory.erase k m) b = if k = b.toNat then Memory.unlisted else Memory.read m b := by
  induction m with
  | nil => simp [Memory.erase]
  | cons c m ih =>
    unfold Memory.erase at ih ⊢
    by_cases hc : c.1 = k
    · rw [List.filter_cons_of_neg (by simp [hc]), ih, read_cons, hc]
      by_cases hk : k = b.toNat <;> simp [hk]
    · rw [List.filter_cons_of_pos (by simp [hc]), read_cons, read_cons, ih]
      by_cases hk : c.1 = b.toNat
      · simp [hk, show k ≠ b.toNat from fun h => hc (hk.trans h.symm)]
      · simp [hk]

/-- `MemRead` after `MemWrite` (20_memory.md R31, R32), for every memory. -/
theorem read_write (m : Memory) (a v b : Byte) :
    (m.write a v).read b = if b = a then v else m.read b := by
  have h : a.toNat = b.toNat ↔ b = a := BitVec.toNat_inj.trans eq_comm
  unfold Memory.write
  split
  · next hv => simp only [read_erase, h, hv]
  · simp only [read_insert, h]

theorem mem_insert (m : Memory) (k : Nat) (v : Byte) (c : Host.Cell) (h : c ∈ Memory.insert k v m) :
    c = (k, v) ∨ c ∈ m := by
  induction m with
  | nil => simpa [Memory.insert] using h
  | cons d m ih =>
    simp only [Memory.insert] at h
    split at h
    · rcases List.mem_cons.1 h with h | h
      · exact .inr (h ▸ List.mem_cons_self)
      · exact (ih h).imp id (List.mem_cons_of_mem _)
    · split at h
      · exact (List.mem_cons.1 h).imp id (List.mem_cons_of_mem _)
      · exact List.mem_cons.1 h

theorem insert_sorted (m : Memory) (k : Nat) (v : Byte) (h : m.Pairwise fun c d => c.1 < d.1) :
    (Memory.insert k v m).Pairwise fun c d => c.1 < d.1 := by
  induction m with
  | nil => simp [Memory.insert]
  | cons d m ih =>
    obtain ⟨hd, hm⟩ := List.pairwise_cons.1 h
    simp only [Memory.insert]
    split
    · next hlt =>
      refine List.pairwise_cons.2 ⟨fun c hc => ?_, ih hm⟩
      rcases mem_insert m k v c hc with rfl | hc
      · exact hlt
      · exact hd c hc
    · next hge =>
      split
      · next heq => exact List.pairwise_cons.2 ⟨fun c hc => heq ▸ hd c hc, hm⟩
      · next hne =>
        have hk : k < d.1 := by omega
        refine List.pairwise_cons.2 ⟨fun c hc => ?_, h⟩
        rcases List.mem_cons.1 hc with rfl | hc
        · exact hk
        · exact hk.trans (hd c hc)

/-- A write keeps the canonical form. -/
theorem wf_write (m : Memory) (a v : Byte) (h : m.wf) : (m.write a v).wf := by
  obtain ⟨hs, hc⟩ := h
  unfold Memory.write
  split
  · exact ⟨hs.filter _, fun c hm => hc c (List.mem_of_mem_filter hm)⟩
  · next hv =>
    refine ⟨insert_sorted m _ v hs, fun c hm => ?_⟩
    rcases mem_insert m _ v c hm with rfl | hm
    · exact ⟨a.isLt, hv⟩
    · exact hc c hm

/-- Writing bytes in a row keeps the canonical form. -/
theorem wf_writeBytes (bytes : List Byte) (m : Memory) (a : Byte) (h : m.wf) : (m.writeBytes a bytes).wf := by
  induction bytes generalizing m a with
  | nil => exact h
  | cons v vs ih => exact ih _ _ (wf_write m a v h)

/-- Bytes written in a row, where the row does not wrap past 255, leave every cell outside it alone. -/
theorem read_writeBytes_outside (bytes : List Byte) (m : Memory) (a b : Byte)
    (hb : b.toNat < a.toNat ∨ a.toNat + bytes.length ≤ b.toNat) (hl : a.toNat + bytes.length ≤ 256) :
    (m.writeBytes a bytes).read b = m.read b := by
  induction bytes generalizing m a with
  | nil => rfl
  | cons v vs ih =>
    simp only [List.length_cons] at hb hl
    have hne : b ≠ a := by rintro rfl; omega
    have hw : ∀ m' : Memory, (Memory.writeBytes m' (a + 1) vs).read b = m'.read b := by
      intro m'
      cases vs with
      | nil => rfl
      | cons v' vs' =>
        simp only [List.length_cons] at hb hl
        have ha : (a + 1).toNat = a.toNat + 1 := by rw [BitVec.toNat_add]; simp; omega
        exact ih m' (a + 1) (by simp only [List.length_cons]; omega) (by simp only [List.length_cons]; omega)
    rw [Memory.writeBytes, hw, read_write, if_neg hne]

/-- Bytes written in a row, where the row does not wrap past 255, are read back in order. -/
theorem read_writeBytes_inside (bytes : List Byte) (m : Memory) (a : Byte) (k : Nat) (hk : k < bytes.length)
    (hl : a.toNat + bytes.length ≤ 256) : (m.writeBytes a bytes).read (BitVec.ofNat 8 (a.toNat + k)) = bytes[k] := by
  induction bytes generalizing m a k with
  | nil => simp at hk
  | cons v vs ih =>
    simp only [List.length_cons] at hk hl
    cases vs with
    | nil =>
      obtain rfl : k = 0 := by simpa using hk
      simp [Memory.writeBytes, read_write]
    | cons v' vs' =>
      simp only [List.length_cons] at hk hl
      have ha : (a + 1).toNat = a.toNat + 1 := by rw [BitVec.toNat_add]; simp; omega
      cases k with
      | zero =>
        rw [Memory.writeBytes, read_writeBytes_outside]
        · simp [read_write]
        · left; simp; omega
        · simp only [List.length_cons]; omega
      | succ k =>
        have h := ih (m.write a v) (a + 1) k (by simp only [List.length_cons]; omega)
          (by simp only [List.length_cons]; omega)
        rw [ha, Nat.add_assoc, Nat.add_comm 1 k] at h
        exact h

/-- The empty memory, that of reset, is canonical. -/
theorem wf_nil : Memory.wf [] := by simp [Memory.wf]

/-- The bytes at `a` on begin with the byte at `a`. -/
theorem readBytes_succ (m : Memory) (a : Byte) (n : Nat) :
    m.readBytes a (n + 1) = m.read a :: m.readBytes (a + 1) n := rfl

theorem readBytes_length (m : Memory) (a : Byte) (n : Nat) : (m.readBytes a n).length = n := by
  induction n generalizing a with
  | zero => rfl
  | succ n ih => simp [readBytes_succ, ih]

end Sys2Proof.Machine
end

