-- ==== Sys2Proof/Laws/Fetch.lean ====
section
/-! SUPPORT. What the sequencer's fetch does, in terms of the decoder. -/

namespace Sys2Proof.Machine

/-- The opcode map at every byte: a legal opcode is 1 to 15 (30_encoding.md R53, R54). -/
theorem opcodeRow_eq_none (b : Byte) : opcodeRow b = none ↔ b.toNat = 0 ∨ 16 ≤ b.toNat := by
  unfold opcodeRow
  split <;> simp_all
  omega

/-- A fetch of a row's operands binds the bytes the decoder binds, and moves `pc` past them. -/
theorem fetchOperands_spec (row : OpcodeRow) (s : State) (b0 : Byte) (hrow : opcodeRow b0 = some row) :
    ∃ rest, row.bind (s.mem.readBytes s.pc 3) = .instr (fetchOperands row s).1 rest ∧
      (fetchOperands row s).2 = s.setPc (s.pc + BitVec.ofNat 8 ((fetchOperands row s).1.length - 1)) := by
  unfold opcodeRow at hrow
  split at hrow <;> cases hrow <;>
    simp [fetchOperands, OpcodeRow.bind, Instr.length, Memory.readBytes, State.fetchByte, State.setPc, BitVec.add_assoc]

/-- The fetch of an instruction, where the decoder reads one at `pc`. -/
theorem fetchInstr_of_instr (s : State) (i : Instr) (rest : List Byte) (h : s.decoded = .instr i rest) :
    fetchInstr s = (some i, s.setPc (s.pc + BitVec.ofNat 8 i.length)) := by
  unfold State.decoded at h
  rw [readBytes_succ, decode] at h
  cases hrow : opcodeRow (s.mem.read s.pc) with
  | none => simp [hrow] at h
  | some row =>
    simp only [hrow] at h
    obtain ⟨rest', hb, hs⟩ := fetchOperands_spec row (s.setPc (s.pc + 1)) _ hrow
    simp only [setPc_mem, setPc_pc] at hb
    rw [h] at hb
    injection hb with hi _
    have hlen : 1 ≤ i.length := by cases i <;> simp [Instr.length]
    have hpc : s.pc + 1 + BitVec.ofNat 8 (i.length - 1) = s.pc + BitVec.ofNat 8 i.length := by
      obtain ⟨n, hn⟩ : ∃ n, i.length = n + 1 := ⟨i.length - 1, by omega⟩
      rw [hn, Nat.add_sub_cancel, BitVec.add_assoc, BitVec.ofNat_add]
      congr 1
      exact BitVec.add_comm _ _
    simp only [fetchInstr, fetchByte_fst, fetchByte_snd, hrow]
    rw [← hi] at hs
    simp only [setPc_pc, setPc_setPc, hpc] at hs
    rw [hs, ← hi]

/-- The fetch of an illegal opcode byte: one byte, no operand (30_encoding.md R54). -/
theorem fetchInstr_of_illegal (s : State) (b0 : Byte) (h : s.decoded = .illegalOpcode b0) :
    fetchInstr s = (none, s.setPc (s.pc + 1)) := by
  unfold State.decoded at h
  rw [readBytes_succ, decode] at h
  cases hrow : opcodeRow (s.mem.read s.pc) with
  | none => simp [fetchInstr, hrow]
  | some row =>
    simp only [hrow] at h
    obtain ⟨rest', hb, _⟩ := fetchOperands_spec row (s.setPc (s.pc + 1)) _ hrow
    simp only [setPc_mem, setPc_pc] at hb
    rw [h] at hb
    cases hb

/-- Memory never ends inside an instruction: four bytes are always there. -/
theorem decoded_ne_truncated (s : State) : s.decoded ≠ .truncated := by
  intro h
  unfold State.decoded at h
  rw [readBytes_succ, decode] at h
  cases hrow : opcodeRow (s.mem.read s.pc) with
  | none => simp [hrow] at h
  | some row =>
    simp only [hrow] at h
    obtain ⟨rest', hb, _⟩ := fetchOperands_spec row (s.setPc (s.pc + 1)) _ hrow
    simp only [setPc_mem, setPc_pc] at hb
    rw [h] at hb
    cases hb

/-- The trace does not enter what is decoded. -/
@[simp] theorem traceAppend_decoded (s : State) : s.traceAppend.decoded = s.decoded := rfl

/-- The state the effect runs in, as the sequencer reaches it. -/
theorem afterFetch_eq (s : State) (n : Nat) :
    s.traceAppend.setPc (s.pc + BitVec.ofNat 8 n) = s.afterFetch n := by
  have h : s.pc + BitVec.ofNat 8 n = BitVec.ofNat 8 ((s.pc.toNat + n) % 256) := by
    apply BitVec.eq_of_toNat_eq; simp [BitVec.toNat_add]
  rw [h]; rfl

end Sys2Proof.Machine
end

