-- ==== Sys2Proof/Laws/PerInstr.lean ====
section
/-! SUPPORT. The family EncodeLength: an instruction's encoding is as long as its length says. -/

namespace Sys2Proof.Laws.EncodeLength

/-- The encoding has the length of 30_encoding.md R57, and 1 to 4 bytes (R50). -/
def Statement (i : Instr) : Prop := (encode i).length = i.length ∧ 1 ≤ i.length ∧ i.length ≤ 4

theorem loadConst (reg value : Byte) : Statement (.loadConst reg value) := by simp [Statement, encode, Instr.length]
theorem move (dest src : Byte) : Statement (.move dest src) := by simp [Statement, encode, Instr.length]
theorem add (dest src1 src2 : Byte) : Statement (.add dest src1 src2) := by simp [Statement, encode, Instr.length]
theorem sub (dest src1 src2 : Byte) : Statement (.sub dest src1 src2) := by simp [Statement, encode, Instr.length]
theorem mul (dest src1 src2 : Byte) : Statement (.mul dest src1 src2) := by simp [Statement, encode, Instr.length]
theorem div (dest src1 src2 : Byte) : Statement (.div dest src1 src2) := by simp [Statement, encode, Instr.length]
theorem loadMem (reg addr : Byte) : Statement (.loadMem reg addr) := by simp [Statement, encode, Instr.length]
theorem storeMem (addr reg : Byte) : Statement (.storeMem addr reg) := by simp [Statement, encode, Instr.length]
theorem jump (addr : Byte) : Statement (.jump addr) := by simp [Statement, encode, Instr.length]
theorem jumpIfZero (reg addr : Byte) : Statement (.jumpIfZero reg addr) := by simp [Statement, encode, Instr.length]
theorem jumpIfNeg (reg addr : Byte) : Statement (.jumpIfNeg reg addr) := by simp [Statement, encode, Instr.length]
theorem call (addr : Byte) : Statement (.call addr) := by simp [Statement, encode, Instr.length]
theorem ret : Statement .ret := by simp [Statement, encode, Instr.length]
theorem halt : Statement .halt := by simp [Statement, encode, Instr.length]
theorem print (reg : Byte) : Statement (.print reg) := by simp [Statement, encode, Instr.length]

end Sys2Proof.Laws.EncodeLength
end

