-- ==== Sys2Proof/Laws/Step.lean ====
section
/-! SUPPORT. What one step can do, said once. -/

namespace Sys2Proof.Machine

/-- The bytes at `pc` are an illegal opcode or an instruction. -/
theorem decoded_cases (s : State) :
    (∃ b0, s.decoded = .illegalOpcode b0) ∨ ∃ i rest, s.decoded = .instr i rest := by
  cases h : s.decoded with
  | illegalOpcode b0 => exact .inl ⟨b0, rfl⟩
  | truncated => exact absurd h (decoded_ne_truncated s)
  | instr i rest => exact .inr ⟨i, rest, rfl⟩

/-- Only a Running core answers a next state. -/
theorem running_of_step (s t : State) (h : step s = .next t) : s.runState = .running := by
  unfold step stepState at h
  cases hr : s.runState <;> simp [hr] at h ⊢

/-- Everything a step can do: raise InvalidOpcode after one byte, or run the effect of the instruction decoded, in the
state with the trace entry appended and `pc` past its bytes. -/
theorem step_cases (s t : State) (h : step s = .next t) :
    (∃ b0, s.decoded = .illegalOpcode b0 ∧ t = (s.afterFetch 1).raise .invalidOpcode) ∨
      ∃ i rest, s.decoded = .instr i rest ∧ exec i (s.afterFetch i.length) = .next t ∧
        Effect i (s.afterFetch i.length) t := by
  have hr := running_of_step s t h
  unfold step stepState at h
  simp only [hr, stepRunning] at h
  rcases decoded_cases s with ⟨b0, hd⟩ | ⟨i, rest, hd⟩
  · rw [fetchInstr_of_illegal s.traceAppend b0 hd] at h
    cases h
    exact .inl ⟨b0, hd, by rw [← afterFetch_eq]; rfl⟩
  · rw [fetchInstr_of_instr s.traceAppend i rest hd] at h
    simp only [traceAppend_pc, afterFetch_eq] at h
    exact .inr ⟨i, rest, hd, h, exec_effect i _ t h⟩

end Sys2Proof.Machine
end

