-- ==== Sys2Proof/Laws/Run.lean ====
section
/-! SUPPORT. Runs of several steps, unfolded one step at a time, and the loop of `run` at each kind of state. -/

namespace Sys2Proof.Machine

theorem runSteps_succ (n : Nat) (s u : State) (h : step s = .next u) : runSteps (n + 1) s = runSteps n u := by
  simp [runSteps, h]

/-- A run of `n + 1` steps begins with a step. -/
theorem exists_of_runSteps_succ (n : Nat) (s t : State) (h : runSteps (n + 1) s = .next t) :
    ∃ u, step s = .next u ∧ runSteps n u = .next t := by
  unfold runSteps at h
  cases hs : step s <;> simp [hs] at h
  exact ⟨_, rfl, h⟩

theorem countSteps_succ (test : State → Bool) (n : Nat) (s u : State) (h : step s = .next u) :
    countSteps test (n + 1) s = (test s).toNat + countSteps test n u := by
  simp [countSteps, h]

/-- Every step appends the entry of 60_exceptions.md R152 to the trace. -/
theorem step_trace (s t : State) (h : step s = .next t) : t.trace = s.trace ++ [⟨s.pc, s.regs⟩] := by
  rcases step_cases s t h with ⟨_, _, rfl⟩ | ⟨_, _, _, _, he⟩
  · rfl
  · cases he <;> simp

/-- A step that does not store to a cell leaves it as it was. -/
theorem step_read (s t : State) (a : Byte) (h : step s = .next t) (ha : ¬ s.StoresTo a) :
    t.mem.read a = s.mem.read a := by
  rcases step_cases s t h with ⟨_, _, rfl⟩ | ⟨i, rest, hd, _, he⟩
  · rfl
  · cases he with
    | stores b r hr e =>
      subst e
      have hne : a ≠ b := by rintro rfl; exact ha ⟨r, rest, hr, hd⟩
      simp [read_write, hne]
    | _ => simp

theorem runLoop_halted (fuel : Nat) (s : State) (h : s.runState ≠ .running) : runLoop fuel s = .ended s.result := by
  rw [runLoop.eq_def]
  cases hr : s.runState <;> simp [hr] at h ⊢

theorem runLoop_zero (s : State) (h : s.runState = .running) : runLoop 0 s = .outOfFuel s := by
  rw [runLoop.eq_def]; simp [h]

theorem runLoop_succ (fuel : Nat) (s u : State) (h : step s = .next u) : runLoop (fuel + 1) s = runLoop fuel u := by
  rw [runLoop.eq_def]; simp [running_of_step s u h, h]

/-- `run` of a Running core is its loop. -/
theorem run_running (fuel : Nat) (s : State) (h : s.runState = .running) : run fuel s = runLoop fuel s := by
  simp [run, h]

end Sys2Proof.Machine
end

