-- ==== Sys2Proof/Tests/Slice0.lean ====
section
/-! SUPPORT. Tests: the well-formedness smoke tests, a decoded word for every constructor, one step of every
instruction with results taken from 95_test_vectors.md, and a witness for the hypotheses of every statement. -/

namespace Sys2Proof.Tests

open Sys2Proof.Machine

/-- Eight registers from their first values, the rest 0. -/
def regs (x0 x1 x2 x3 x4 x5 x6 x7 : Byte) : RegFile := #v[x0, x1, x2, x3, x4, x5, x6, x7]

/-- The reset state with bytes at a program counter and given registers. -/
def place (pc : Byte) (bytes : List Byte) (r : RegFile := Vector.replicate 8 0) : State :=
  { State.reset with pc := pc, regs := r, mem := Memory.writeBytes [] pc bytes }

/-- The answer is a next state with a property. -/
def nextIs (a : Answer) (p : State → Bool) : Bool :=
  match a with
  | .next t => p t
  | .fault _ => false
  | .refused _ => false

/-- A HaltedError state with this error, `pc`, registers, and empty output and stack. -/
def failedWith (e : ErrorKind) (pc : Byte) (r : RegFile) (t : State) : Bool :=
  t.runState == .haltedError && t.error == some e && t.pc == pc && t.regs == r && t.out == [] && t.cs == []

/-- All registers zero. -/
def zeros : RegFile := Vector.replicate 8 0

/-! ### Well-formedness: a register byte of 8 or more in each register operand is refused -/

theorem test_wf_loadConst : ¬ (Instr.loadConst 8 0).WellFormed := by decide
theorem test_wf_move : ¬ (Instr.move 8 0).WellFormed ∧ ¬ (Instr.move 0 8).WellFormed := by decide
theorem test_wf_add : ¬ (Instr.add 8 0 0).WellFormed ∧ ¬ (Instr.add 0 8 0).WellFormed ∧
    ¬ (Instr.add 0 0 8).WellFormed := by decide
theorem test_wf_sub : ¬ (Instr.sub 8 0 0).WellFormed ∧ ¬ (Instr.sub 0 8 0).WellFormed ∧
    ¬ (Instr.sub 0 0 8).WellFormed := by decide
theorem test_wf_mul : ¬ (Instr.mul 8 0 0).WellFormed ∧ ¬ (Instr.mul 0 8 0).WellFormed ∧
    ¬ (Instr.mul 0 0 8).WellFormed := by decide
theorem test_wf_div : ¬ (Instr.div 8 0 0).WellFormed ∧ ¬ (Instr.div 0 8 0).WellFormed ∧
    ¬ (Instr.div 0 0 8).WellFormed := by decide
theorem test_wf_loadMem : ¬ (Instr.loadMem 8 0).WellFormed := by decide
theorem test_wf_storeMem : ¬ (Instr.storeMem 0 255).WellFormed := by decide
theorem test_wf_jumpIfZero : ¬ (Instr.jumpIfZero 8 0).WellFormed := by decide
theorem test_wf_jumpIfNeg : ¬ (Instr.jumpIfNeg 8 0).WellFormed := by decide
theorem test_wf_print : ¬ (Instr.print 8).WellFormed := by decide
/-- Addresses and immediates are never out of range (30_encoding.md R52). -/
theorem test_wf_addresses_free : (Instr.storeMem 255 7).WellFormed ∧ (Instr.loadConst 7 255).WellFormed ∧
    (Instr.jump 255).WellFormed ∧ (Instr.call 255).WellFormed := by decide

/-! ### Decoding: words written out from 30_encoding.md R51 and R53 -/

theorem test_decode_loadConst : decode [0b00000001, 0b00000011, 0b11001000] = .instr (.loadConst 3 200) [] := by decide
theorem test_decode_move : decode [0b00000010, 0b00000101, 0b00000001] = .instr (.move 5 1) [] := by decide
theorem test_decode_add : decode [0b00000011, 0b00000010, 0b00000000, 0b00000001] = .instr (.add 2 0 1) [] := by decide
theorem test_decode_sub : decode [0b00000100, 0b00000010, 0b00000000, 0b00000001] = .instr (.sub 2 0 1) [] := by decide
theorem test_decode_mul : decode [0b00000101, 0b00000010, 0b00000000, 0b00000001] = .instr (.mul 2 0 1) [] := by decide
theorem test_decode_div : decode [0b00000110, 0b00000010, 0b00000000, 0b00000001] = .instr (.div 2 0 1) [] := by decide
theorem test_decode_loadMem : decode [0b00000111, 0b00000001, 0b10000000] = .instr (.loadMem 1 0x80) [] := by decide
theorem test_decode_storeMem : decode [0b00001000, 0b10000000, 0b00000000] = .instr (.storeMem 0x80 0) [] := by decide
theorem test_decode_jump : decode [0b00001001, 0b01000000] = .instr (.jump 0x40) [] := by decide
theorem test_decode_jumpIfZero : decode [0b00001010, 0b00000000, 0b00001111] = .instr (.jumpIfZero 0 0x0F) [] := by
  decide
theorem test_decode_jumpIfNeg : decode [0b00001011, 0b00000000, 0b00010000] = .instr (.jumpIfNeg 0 0x10) [] := by decide
theorem test_decode_call : decode [0b00001100, 0b00001000] = .instr (.call 8) [] := by decide
theorem test_decode_ret : decode [0b00001101, 0b00001110] = .instr .ret [0x0E] := by decide
theorem test_decode_halt : decode [0b00001110] = .instr .halt [] := by decide
theorem test_decode_print : decode [0b00001111, 0b00000111] = .instr (.print 7) [] := by decide
/-- 95_test_vectors.md 2.6 rows 2 to 7, and a byte string cut short. -/
theorem test_decode_illegal : decode [0x00] = .illegalOpcode 0x00 ∧ decode [0x10, 8, 8, 8] = .illegalOpcode 0x10 ∧
    decode [0x1E] = .illegalOpcode 0x1E ∧ decode [0xE0] = .illegalOpcode 0xE0 ∧
    decode [0xFF] = .illegalOpcode 0xFF ∧ decode [0x03, 0, 0] = .truncated := by decide
/-- 30_encoding.md R60: the first byte of a table word is its low byte. -/
theorem test_decode_table_word : decodeTableWord 24 0x008008 = some (.storeMem 0x80 0) ∧
    decodeTableWord 8 0x03 = some (.add 0 0 0) ∧ decodeTableWord 8 0x10 = none := by decide

/-! ### One step of each instruction: 95_test_vectors.md, at most two theorems each -/

/-- 2.1 rows 2 and 8 (the instruction straddles the wrap). -/
theorem test_loadConst : nextIs (step (place 0 [0x01, 7, 255])) (fun t => t.regs == regs 0 0 0 0 0 0 0 255 && t.pc == 3) ∧
    nextIs (step (place 0xFE [0x01, 2, 9])) (fun t => t.regs == regs 0 0 9 0 0 0 0 0 && t.pc == 1) := by decide
/-- 2.6 row 9. -/
theorem test_loadConst_index : nextIs (step (place 0 [0x01, 8, 0])) (failedWith .indexFault 3 zeros) := by decide
/-- 2.1 rows 5 and 7. -/
theorem test_move : nextIs (step (place 0 [0x02, 5, 1] (regs 0 7 0 0 0 0 0 0))) (fun t => t.regs == regs 0 7 0 0 0 7 0 0) ∧
    nextIs (step (place 0 [0x02, 0, 7] (regs 3 0 0 0 0 0 0 250))) (fun t => t.regs == regs 250 0 0 0 0 0 0 250) := by decide
/-- 2.6 rows 11 and 12. -/
theorem test_move_index : nextIs (step (place 0 [0x02, 0, 8])) (failedWith .indexFault 3 zeros) ∧
    nextIs (step (place 0 [0x02, 8, 0])) (failedWith .indexFault 3 zeros) := by decide
/-- 2.2, a = 200, b = 100; and R0 doubled, a = 200. -/
theorem test_add : nextIs (step (place 0 [0x03, 2, 0, 1] (regs 200 100 0 0 0 0 0 0)))
      (fun t => t.regs == regs 200 100 44 0 0 0 0 0 && t.pc == 4) ∧
    nextIs (step (place 0 [0x03, 0, 0, 0] (regs 200 0 0 0 0 0 0 0))) (fun t => t.regs == regs 144 0 0 0 0 0 0 0) := by
  decide
/-- 2.6 row 13; 2.7 row 2. -/
theorem test_add_index_and_wrap : nextIs (step (place 0 [0x03, 0, 0, 8])) (failedWith .indexFault 4 zeros) ∧
    nextIs (step (place 0xFE [0x03, 2, 0, 1] (regs 5 7 0 0 0 0 0 0))) (fun t => t.regs == regs 5 7 12 0 0 0 0 0 &&
      t.pc == 2 && t.trace == [⟨0xFE, regs 5 7 0 0 0 0 0 0⟩]) := by decide
/-- 2.2, a = 3, b = 5; and `04 01 00 01` with x0 = 5, x1 = 7. -/
theorem test_sub : nextIs (step (place 0 [0x04, 2, 0, 1] (regs 3 5 0 0 0 0 0 0))) (fun t => t.regs == regs 3 5 254 0 0 0 0 0) ∧
    nextIs (step (place 0 [0x04, 1, 0, 1] (regs 5 7 0 0 0 0 0 0))) (fun t => t.regs == regs 5 254 0 0 0 0 0 0) := by decide
theorem test_sub_index : nextIs (step (place 0 [0x04, 0, 8, 0])) (failedWith .indexFault 4 zeros) := by decide
/-- 2.2, a = 255, b = 255; a = 16, b = 16. -/
theorem test_mul : nextIs (step (place 0 [0x05, 2, 0, 1] (regs 255 255 0 0 0 0 0 0)))
      (fun t => t.regs == regs 255 255 1 0 0 0 0 0) ∧
    nextIs (step (place 0 [0x05, 2, 0, 1] (regs 16 16 9 0 0 0 0 0))) (fun t => t.regs == regs 16 16 0 0 0 0 0 0) := by decide
theorem test_mul_index : nextIs (step (place 0 [0x05, 255, 0, 0])) (failedWith .indexFault 4 zeros) := by decide
/-- 2.2, a = 255, b = 2; and R0 by itself, a = 200. -/
theorem test_div : nextIs (step (place 0 [0x06, 2, 0, 1] (regs 255 2 0 0 0 0 0 0))) (fun t => t.regs == regs 255 2 127 0 0 0 0 0) ∧
    nextIs (step (place 0 [0x06, 0, 0, 0] (regs 200 0 0 0 0 0 0 0))) (fun t => t.regs == regs 1 0 0 0 0 0 0 0) := by decide
/-- 2.6 rows 8 and 14. -/
theorem test_div_errors : nextIs (step (place 0 [0x06, 2, 0, 1])) (failedWith .divisionByZero 4 zeros) ∧
    nextIs (step (place 0 [0x06, 8, 0, 1])) (failedWith .indexFault 4 zeros) := by decide
/-- 2.3 rows 1 and 2. -/
theorem test_loadMem : nextIs (step (place 0 [0x07, 2, 4, 0x0E, 0x2A])) (fun t => t.regs == regs 0 0 42 0 0 0 0 0 && t.pc == 3) ∧
    nextIs (step (place 0 [0x07, 0, 0])) (fun t => t.regs == regs 7 0 0 0 0 0 0 0) := by decide
/-- 2.6 row 15. -/
theorem test_loadMem_index : nextIs (step (place 0 [0x07, 9, 0])) (failedWith .indexFault 3 zeros) := by decide
/-- 2.3 rows 6 and 7 (its own opcode byte overwritten). -/
theorem test_storeMem : nextIs (step (place 0 [0x08, 255, 7] (regs 0 0 0 0 0 0 0 255)))
      (fun t => t.mem == [(0, 8), (1, 255), (2, 7), (255, 255)] && t.pc == 3) ∧
    nextIs (step (place 0 [0x08, 0, 1] (regs 0 0x0E 0 0 0 0 0 0))) (fun t => t.mem == [(0, 0x0E), (2, 1)] && t.pc == 3) := by
  decide
/-- 2.6 row 16. -/
theorem test_storeMem_index : nextIs (step (place 0 [0x08, 0, 255]))
    (fun t => failedWith .indexFault 3 zeros t && t.mem.read 0 == 8) := by decide
/-- 2.4 rows 1 and 17. -/
theorem test_jump : nextIs (step (place 0 [0x09, 0x40])) (fun t => t.pc == 0x40 && t.cs == []) ∧
    nextIs (step (place 0 [0x09, 0xFF])) (fun t => t.pc == 0xFF) := by decide
/-- 2.4 rows 3 and 5. -/
theorem test_jumpIfZero : nextIs (step (place 0 [0x0A, 0, 0x0F])) (fun t => t.pc == 0x0F) ∧
    nextIs (step (place 0 [0x0A, 0, 0x0F] (regs 128 0 0 0 0 0 0 0))) (fun t => t.pc == 3) := by decide
/-- 2.6 row 17. -/
theorem test_jumpIfZero_index : nextIs (step (place 0 [0x0A, 8, 0x10])) (failedWith .indexFault 3 zeros) := by decide
/-- 2.4 rows 7 and 9. -/
theorem test_jumpIfNeg : nextIs (step (place 0 [0x0B, 0, 0x10] (regs 0x80 0 0 0 0 0 0 0))) (fun t => t.pc == 0x10) ∧
    nextIs (step (place 0 [0x0B, 0, 0x10] (regs 0x7F 0 0 0 0 0 0 0))) (fun t => t.pc == 3) := by decide
/-- 2.6 row 18. -/
theorem test_jumpIfNeg_index : nextIs (step (place 0 [0x0B, 8, 0x10])) (failedWith .indexFault 3 zeros) := by decide
/-- 2.4 row 12. -/
theorem test_call : nextIs (step { place 0x20 [0x0C, 0x10] with cs := [5] }) (fun t => t.cs == [5, 0x22] && t.pc == 0x10) := by
  decide
/-- 2.4 row 14. -/
theorem test_call_wrap : nextIs (step (place 0xFF [0x0C, 0x10])) (fun t => t.cs == [1] && t.pc == 0x10) := by decide
/-- 2.4 row 15. -/
theorem test_ret : nextIs (step { place 0x30 [0x0D] with cs := [5, 0x22] }) (fun t => t.cs == [5] && t.pc == 0x22) := by decide
/-- 2.4 row 6. -/
theorem test_ret_empty : nextIs (step (place 0 [0x0D])) (fun t => t.cs == [] && t.pc == 1 && t.runState == .running) := by
  decide
/-- 2.5 row 1. -/
theorem test_halt : nextIs (step (place 0 [0x0E]))
    (fun t => t.runState == .haltedOk && t.error == none && t.pc == 1 && t.trace == [⟨0, zeros⟩]) := by decide
/-- 2.5 row 2. -/
theorem test_halt_wrap : nextIs (step (place 0xFF [0x0E])) (fun t => t.runState == .haltedOk && t.pc == 0) := by decide
/-- 2.5 rows 3, 7 and 9. -/
theorem test_print : nextIs (step (place 0 [0x0F, 0])) (fun t => t.out == ['0'] && t.pc == 2) ∧
    nextIs (step (place 0 [0x0F, 0] (regs 100 0 0 0 0 0 0 0))) (fun t => t.out == ['1', '0', '0']) ∧
    nextIs (step (place 0 [0x0F, 7] (regs 0 0 0 0 0 0 0 255))) (fun t => t.out == ['2', '5', '5']) := by decide
/-- 2.6 row 19. -/
theorem test_print_index : nextIs (step (place 0 [0x0F, 8])) (failedWith .indexFault 2 zeros) := by decide

/-! ### Illegal opcodes, the host's transactions and the port encodings -/

/-- 2.6 rows 1 and 3. -/
theorem test_illegal_opcode : nextIs (step State.reset) (failedWith .invalidOpcode 1 zeros) ∧
    nextIs (step (place 0 [0x10, 8, 8, 8])) (failedWith .invalidOpcode 1 zeros) := by decide
/-- 2.7 row 7: the tail of the first image stays. -/
theorem test_load_keeps_the_tail : nextIs (load [0x11, 0x22] (place 0 [0xAA, 0xBB, 0xCC, 0xDD]))
    (fun t => t.mem.readBytes 0 4 == [0x11, 0x22, 0xCC, 0xDD] && t.pc == 0) := by decide
/-- P9: the image `0E` ends in success after one step; `00` in InvalidOpcode. -/
theorem test_run : run 1 (place 0 [0x0E]) = .ended ⟨true, zeros, [], [⟨0, zeros⟩], none⟩ ∧
    run 1 State.reset = .ended ⟨false, zeros, [], [⟨0, zeros⟩], some .invalidOpcode⟩ ∧
    run 0 (place 0 [0x0E]) = .outOfFuel (place 0 [0x0E]) := by decide
/-- 10_state.md R16 and 45_system_output.md R132: the port encodings. -/
theorem test_port_encodings : RunState.code .running = 0 ∧ RunState.code .haltedOk = 1 ∧ RunState.code .haltedError = 2 ∧
    errorCode none = 0 ∧ errorCode (some .invalidOpcode) = 1 ∧ errorCode (some .divisionByZero) = 2 ∧
    errorCode (some .indexFault) = 3 ∧ outBytes ['0', '9'] = [0x30, 0x39] := by decide
/-- The placed word wraps with `pc`, and the step runs it. -/
theorem test_placed_word : nextIs (step ({ State.reset with pc := 0xFE }.withFetchWord 24 0x090201))
    (fun t => t.regs == regs 0 0 9 0 0 0 0 0 && t.pc == 1) := by decide

/-! ### Witnesses: a state and operands that meet the hypotheses of each statement, clause by clause at the boundary -/

theorem witness_OpcodeByteAloneSelectsTheRow :
    ((0 : Byte).toNat = 0 ∨ 16 ≤ (0 : Byte).toNat) ∧ ((16 : Byte).toNat = 0 ∨ 16 ≤ (16 : Byte).toNat) ∧
    ((255 : Byte).toNat = 0 ∨ 16 ≤ (255 : Byte).toNat) := by decide

theorem witness_PlacedWordIsRunNext :
    State.reset.runState = .running ∧ decodeTableWord 32 0x01000203 = some (.add 2 0 1) := by decide

theorem witness_CanonicalMemoriesThatReadAlikeAreEqual :
    Memory.wf [(3, 1), (255, 7)] ∧ Memory.wf (Memory.write [(3, 1)] 255 7) ∧
    (∀ a : Byte, Memory.read [(3, 1), (255, 7)] a = Memory.read (Memory.write [(3, 1)] 255 7) a) :=
  ⟨by decide, by decide, fun _ => rfl⟩

theorem witness_StepRunsTheDecodedInstruction :
    (place 0xFE [0x03, 2, 0, 1]).runState = .running ∧
    decode ((place 0xFE [0x03, 2, 0, 1]).mem.readBytes 0xFE 4) = .instr (.add 2 0 1) [] := by decide

/-- The two clauses at opcode bytes 0x00, 0x10 and at 0x01, 0x0F. -/
theorem witness_IllegalOpcodeRaisesInvalidOpcode :
    ((State.reset.mem.read 0).toNat = 0 ∧ 16 ≤ ((place 0 [0x10]).mem.read 0).toNat) ∧
    (1 ≤ ((place 0 [0x01]).mem.read 0).toNat ∧ ((place 0 [0x0F]).mem.read 0).toNat ≤ 15 ∧
      (place 0 [0x0F]).error = none ∧ (place 0 [0x0F]).runState = .running ∧
      nextIs (step (place 0 [0x01])) (fun _ => true) ∧ nextIs (step (place 0 [0x0F])) (fun _ => true)) := by decide

theorem witness_OutOfRangeRegisterRaisesIndexFault :
    (place 0 [0x06, 8, 0, 1]).runState = .running ∧ (place 0 [0x06, 8, 0, 1]).decoded = .instr (.div 8 0 1) [] ∧
    ¬ (Instr.div 8 0 1).WellFormed := by decide

/-- A DIV at 0 from reset registers divides by zero; the second clause's step is the same one. -/
theorem witness_OnlyDivByZeroRaisesDivisionByZero :
    (place 0 [0x06, 2, 0, 7]).runState = .running ∧ (place 0 [0x06, 2, 0, 7]).decoded = .instr (.div 2 0 7) [] ∧
    (place 0 [0x06, 2, 0, 7]).DividesByZero (.div 2 0 7) ∧ (place 0 [0x06, 2, 0, 7]).error = none ∧
    nextIs (step (place 0 [0x06, 2, 0, 7])) (fun t => t.error == some .divisionByZero) :=
  ⟨rfl, by decide, ⟨2, 0, 7, by decide, rfl, by decide, by decide⟩, rfl, by decide⟩

theorem witness_ErrorOfAStepFollowsTheOrderOfChecks :
    (place 0 [0x06, 8, 0, 1]).runState = .running ∧ (place 0 [0x06, 8, 0, 1]).error = none ∧
    nextIs (step (place 0 [0x06, 8, 0, 1])) (fun t => t.error == some .indexFault) := by decide

/-- Each of the last two clauses has a failing step: an illegal opcode and a fetched instruction. -/
theorem witness_ErrorsArePrecise :
    nextIs (step State.reset) (fun t => t.runState == .haltedError) ∧ State.reset.decoded = .illegalOpcode 0 ∧
    nextIs (step (place 0xFF [0x0F, 8])) (fun t => t.runState == .haltedError) ∧
    (place 0xFF [0x0F, 8]).decoded = .instr (.print 8) [0, 0] := by decide

/-- The five clauses, in order. -/
theorem witness_ARunEndsInExactlyFourWays :
    ((place 0 [0x0E]).decoded = .instr .halt [0, 0, 0] ∧ nextIs (step (place 0 [0x0E])) (fun _ => true)) ∧
    (State.reset.decoded = .illegalOpcode 0 ∧ nextIs (step State.reset) (fun _ => true)) ∧
    ((place 0 [0x06, 2, 0, 7]).decoded = .instr (.div 2 0 7) [] ∧
      (place 0 [0x06, 2, 0, 7]).DividesByZero (.div 2 0 7) ∧ nextIs (step (place 0 [0x06, 2, 0, 7])) (fun _ => true)) ∧
    ((place 0 [0x0F, 8]).decoded = .instr (.print 8) [0, 0] ∧ ¬ (Instr.print 8).WellFormed ∧
      nextIs (step (place 0 [0x0F, 8])) (fun _ => true)) ∧
    ((place 0 [0x0F, 7]).decoded = .instr (.print 7) [0, 0] ∧ Instr.print 7 ≠ .halt ∧ (Instr.print 7).WellFormed ∧
      ¬ (place 0 [0x0F, 7]).DividesByZero (.print 7) ∧ nextIs (step (place 0 [0x0F, 7])) (fun _ => true)) := by
  refine ⟨by decide, by decide, ⟨by decide, ⟨2, 0, 7, by decide, rfl, by decide, by decide⟩, by decide⟩, by decide,
    by decide, by decide, by decide, ?_, by decide⟩
  rintro ⟨_, _, _, _, h, _⟩; cases h

theorem witness_AStepWithNoCauseOfErrorStaysSafe :
    (place 0 [0x0F, 7]).runState = .running ∧ (place 0 [0x0F, 7]).decoded = .instr (.print 7) [0, 0] ∧
    (Instr.print 7).WellFormed ∧ ¬ (place 0 [0x0F, 7]).DividesByZero (.print 7) := by
  refine ⟨by decide, by decide, by decide, ?_⟩
  rintro ⟨_, _, _, _, h, _⟩; cases h

theorem witness_HaltedStatesAreTerminal :
    { State.reset with runState := .haltedOk }.runState = .haltedOk ∧
    (State.reset.raise .invalidOpcode).runState = .haltedError := by decide

theorem witness_OperationsRefuseACoreThatIsNotRunning :
    { State.reset with runState := .haltedOk }.runState ≠ .running ∧
    (State.reset.raise .indexFault).runState ≠ .running := by decide

theorem witness_ARunningCoreAlwaysSteps : State.reset.runState = .running := by decide

/-- The register operands 7 (in range) and 8 (out of range) of the clauses of the statements on LOAD_CONST, MOVE, ADD, SUB,
MUL, LOAD_MEM, STORE_MEM and PRINT. -/
theorem witness_register_operand_boundary : (7 : Byte).toNat < 8 ∧ 8 ≤ (8 : Byte).toNat ∧ (0 : Byte).toNat < 8 ∧
    8 ≤ (255 : Byte).toNat := by decide

/-- The divisor clauses of the statement on DIV: a divisor of 1 and of 0. -/
theorem witness_DivWritesTheFloorOfTheQuotient :
    (regs 255 1 0 0 0 0 0 0)[(1 : Byte).toNat]'(by decide) ≠ 0 ∧
    (regs 255 0 0 0 0 0 0 0)[(1 : Byte).toNat]'(by decide) = 0 ∧ 8 ≤ (8 : Byte).toNat := by decide

/-- A divisor that is not zero and one that is, in the last register. -/
theorem witness_ArithmeticIsModulo256OnUnsignedBytes :
    (1 : Byte) ≠ 0 ∧ (255 : Byte) ≠ 0 ∧ (7 : Byte).toNat < 8 ∧
    (regs 0 0 0 0 0 0 0 255)[(7 : Byte).toNat]'(by decide) = 255 ∧
    (regs 1 0 0 0 0 0 0 0)[(7 : Byte).toNat]'(by decide) = 0 := by decide

/-- A STORE_MEM that overwrites its own opcode byte, before a STORE_MEM to another cell and one to this cell. -/
def storeThenStore : State := place 0 [0x08, 0, 7, 0x08, 0x80, 0, 0x08, 0, 0]

theorem witness_AStoreIsSeenByEveryLaterFetch :
    storeThenStore.runState = .running ∧ storeThenStore.decoded = .instr (.storeMem 0 7) [0x08] ∧
    nextIs (step storeThenStore) (fun t => t.decoded == .instr (.storeMem 0x80 0) [0x08] &&
      nextIs (runSteps 1 t) (fun u => u.decoded == .instr (.storeMem 0 0) [0] &&
        (u.setPc 0).mem == u.mem && (u.setPc 0).pc == 0)) := by decide

/-- Another store to the address counts, one with its register out of range does not. -/
theorem witness_StoresTo : (place 3 [0x08, 0, 7]).StoresTo 0 ∧ ¬ (place 3 [0x08, 0, 8]).StoresTo 0 ∧
    ¬ (place 3 [0x08, 0x80, 7]).StoresTo 0 := by
  refine ⟨⟨7, [0], by decide, by decide⟩, ?_, ?_⟩ <;> rintro ⟨reg, rest, hr, hd⟩
  · have h : (place 3 [0x08, 0, 8]).decoded = .instr (.storeMem 0 8) [0] := by decide
    cases h.symm.trans hd
    exact absurd hr (by decide)
  · have h : (place 3 [0x08, 0x80, 7]).decoded = .instr (.storeMem 0x80 7) [0] := by decide
    exact absurd (h.symm.trans hd) (by simp)

/-- The taken, not taken and out-of-range clauses of JUMP_IF_ZERO. -/
theorem witness_JumpIfZeroJumpsOnZero :
    (regs 0 0 0 0 0 0 0 0)[(7 : Byte).toNat]'(by decide) = 0 ∧
    (regs 0 0 0 0 0 0 0 1)[(7 : Byte).toNat]'(by decide) ≠ 0 ∧ 8 ≤ (8 : Byte).toNat := by decide

/-- The taken clause of JUMP_IF_NEG at 128, the other at 127. -/
theorem witness_JumpIfNegJumpsOnBit7 :
    128 ≤ ((regs 0 0 0 0 0 0 0 128)[(7 : Byte).toNat]'(by decide)).toNat ∧
    ((regs 0 0 0 0 0 0 0 127)[(7 : Byte).toNat]'(by decide)).toNat < 128 ∧ 8 ≤ (8 : Byte).toNat := by decide

theorem witness_CallPushesTheNextAddressAndJumps :
    (place 0xFF [0x0C, 0x10]).runState = .running ∧ (place 0xFF [0x0C, 0x10]).decoded = .instr (.call 0x10) [0, 0] := by
  decide

/-- A non-empty stack, an empty one, and a RETURN at 0xFF on an empty stack. -/
theorem witness_ReturnPopsIntoPcOrFallsThrough :
    ([5, 0x22] : List Byte) = [5] ++ [0x22] ∧ State.reset.cs = [] ∧ (place 0xFF [0x0D]).runState = .running ∧
    (place 0xFF [0x0D]).decoded = .instr .ret [0, 0, 0] ∧ (place 0xFF [0x0D]).cs = [] := by decide

theorem witness_HaltEndsTheRunCleanly :
    (place 0xFF [0x0E]).runState = .running ∧ (place 0xFF [0x0E]).decoded = .instr .halt [0, 0, 0] ∧
    nextIs (step (place 0xFF [0x0E])) (fun t => t.runState == .haltedOk && t.result.success) ∧
    nextIs (step (place 0xFF [0x0F, 8])) (fun t => !t.result.success) := by decide

theorem witness_DecIsTheBaseTenNumeral :
    (9 : Byte).toNat < 10 ∧ (10 ≤ (10 : Byte).toNat ∧ (99 : Byte).toNat < 100) ∧ 100 ≤ (100 : Byte).toNat ∧
    (dec 0).head? = some '0' := by decide

/-- The seven constructors have a destination, here register 7, and run; one also out of range, one dividing by zero. -/
theorem witness_FrameOfRegisterWritingInstructions :
    (Instr.loadConst 7 1).dest = some 7 ∧ (Instr.move 7 1).dest = some 7 ∧ (Instr.add 7 0 1).dest = some 7 ∧
    (Instr.sub 7 0 1).dest = some 7 ∧ (Instr.mul 7 0 1).dest = some 7 ∧ (Instr.div 7 0 1).dest = some 7 ∧
    (Instr.loadMem 7 1).dest = some 7 ∧ (Instr.loadMem 8 1).dest = some 8 ∧
    nextIs (exec (.add 7 0 1) State.reset) (fun _ => true) ∧ nextIs (exec (.div 7 0 1) State.reset) (fun _ => true) ∧
    nextIs (exec (.loadMem 8 1) State.reset) (fun _ => true) := by decide

theorem witness_FrameOfStoreMem :
    nextIs (exec (.storeMem 0 7) State.reset) (fun _ => true) ∧ (255 : Byte) ≠ 0 ∧
    nextIs (exec (.storeMem 0 8) State.reset) (fun _ => true) ∧ 8 ≤ (8 : Byte).toNat := by decide

theorem witness_FrameOfControlTransfers :
    nextIs (exec (.jump 9) State.reset) (fun _ => true) ∧ nextIs (exec (.jumpIfZero 7 9) State.reset) (fun _ => true) ∧
    nextIs (exec (.jumpIfNeg 8 9) State.reset) (fun _ => true) ∧ nextIs (exec (.call 9) State.reset) (fun _ => true) ∧
    nextIs (exec .ret State.reset) (fun _ => true) := by decide

theorem witness_FrameOfHaltAndPrint :
    nextIs (exec .halt State.reset) (fun _ => true) ∧ nextIs (exec (.print 7) State.reset) (fun _ => true) ∧
    nextIs (exec (.print 8) State.reset) (fun _ => true) ∧ Instr.print 7 ≠ .halt := by decide

/-- A step that changes register 7, one that changes cell 0, one that pushes and one that prints. -/
theorem witness_EachPieceOfStateChangesOnlyByItsOwnInstructions :
    nextIs (step (place 0 [0x01, 7, 1])) (fun t => t.readReg 7 != 0) ∧
    nextIs (step (place 0 [0x08, 0, 0])) (fun t => t.mem.read 0 != 8) ∧
    nextIs (step (place 0 [0x0C, 9])) (fun t => t.cs != []) ∧
    nextIs (step (place 0 [0x0F, 0])) (fun t => t.out != []) := by decide

theorem witness_PcMovesToTheNextAddressOrATarget :
    State.reset.decoded = .illegalOpcode 0 ∧ nextIs (step State.reset) (fun _ => true) ∧
    (place 0xFF [0x09, 0]).decoded = .instr (.jump 0) [0, 0] ∧ nextIs (step (place 0xFF [0x09, 0])) (fun _ => true) := by
  decide

/-- A Running state in mid-run that meets the invariant: one entry in the trace, a numeral in the output. -/
def midRun : State :=
  { place 3 [0x0F, 0] with out := ['7'], trace := [⟨0, Vector.replicate 8 0⟩] }

theorem midRun_inv : midRun.Inv where
  memory := by decide
  errorKind := by decide
  output := ⟨[7], by decide⟩
  origin := by simp [midRun]
  firstEntry := by simp [midRun]

theorem witness_EveryStepKeepsTheInvariant : midRun.Inv ∧ nextIs (step midRun) (fun _ => true) :=
  ⟨midRun_inv, by decide⟩

theorem witness_LoadKeepsTheInvariant : midRun.Inv ∧ nextIs (load [0x0E, 0] midRun) (fun _ => true) :=
  ⟨midRun_inv, by decide⟩

/-- Two steps: a CALL to a RETURN, and the RETURN. -/
theorem witness_CallStackCountsTheUnmatchedCalls :
    nextIs (runSteps 2 (place 0 [0x0C, 0x02, 0x0D])) (fun t => t.cs == []) ∧
    countSteps State.callsNow 2 (place 0 [0x0C, 0x02, 0x0D]) = 1 ∧
    countSteps State.returnsNow 2 (place 0 [0x0C, 0x02, 0x0D]) = 1 := by decide

/-- Both clauses, and within the first an old entry and a new one. -/
theorem witness_TheTraceRecordsEveryStep :
    nextIs (runSteps 1 midRun) (fun _ => true) ∧ 0 < midRun.trace.length ∧ 0 < 1 ∧
    nextIs (runSteps 0 midRun) (fun _ => true) ∧
    nextIs (load [0x0E] State.reset) (fun s => nextIs (runSteps 1 s) (fun _ => true)) := by decide

theorem witness_TraceAndOutputDoNotInfluenceExecution : nextIs (runSteps 1 midRun) (fun t => t.out == ['7', '0']) := by
  decide

theorem witness_AJumpToItselfRunsForever :
    (place 0xFF [0x09, 0xFF]).runState = .running ∧ (place 0xFF [0x09, 0xFF]).decoded = .instr (.jump 0xFF) [0, 0] := by
  decide

/-- Images of 0, 1 and 256 bytes, and the cells inside and outside a one-byte image. -/
theorem witness_LoadCopiesTheImageFromAddressZero :
    State.reset.runState = .running ∧ ([] : List Byte).length ≤ 256 ∧ (List.replicate 256 (9 : Byte)).length ≤ 256 ∧
    0 < ([0x0E] : List Byte).length ∧ ([0x0E] : List Byte).length ≤ (1 : Byte).toNat := by
  exact ⟨rfl, by decide, by rw [List.length_replicate], by decide, by decide⟩

theorem witness_LoadOfTooLongAnImageFails :
    State.reset.runState = .running ∧ 256 < (List.replicate 257 (9 : Byte)).length := by
  exact ⟨rfl, by rw [List.length_replicate]; decide⟩

theorem witness_RunYieldsTheResultOfTheHaltedState :
    midRun.Inv ∧ run 2 midRun = .ended ⟨false, zeros, ['7', '0'], [⟨0, zeros⟩, ⟨3, zeros⟩, ⟨5, zeros⟩], some .invalidOpcode⟩ :=
  ⟨midRun_inv, by decide⟩

theorem witness_RunEndsOrUsesAllItsFuel : (place 0 [0x09, 0]).runState = .running ∧ midRun.runState = .running := by
  decide

theorem witness_ResultDoesNotDependOnFuel :
    run 1 (place 0 [0x0E]) = .ended ⟨true, zeros, [], [⟨0, zeros⟩], none⟩ := by decide

end Sys2Proof.Tests
end

section
/-! SUPPORT. The statements on memory of 20_memory.md: one write, and the load of an image. -/

namespace Sys2Proof.Machine

/-- The instruction fetch reads the cells that `MemWrite` writes (20_memory.md R32): from a cell just written it yields
the value. -/
theorem fetchByte_writeMem_same (s : State) (a v : Byte) : ((s.writeMem a v).setPc a).fetchByte.1 = v := by
  simp [read_write]

/-- Settles O8: read-over-write for data reads, and the fetch reads that same memory. -/
theorem memoryWriteIsSeenByReadAndFetch : Obligations.MemoryWriteIsSeenByReadAndFetch :=
  fun s a v b => ⟨read_write s.mem a v b, rfl, fetchByte_writeMem_same s a v⟩

/-- A Running core takes every image that fits in memory (20_memory.md R42). -/
theorem load_of_length_le (image : List Byte) (s : State) (hrun : s.runState = .running) (hlen : image.length ≤ 256) :
    load image s = .next { s with mem := s.mem.writeBytes 0 image, pc := 0 } := by
  simp [load, hrun, Nat.not_lt.mpr hlen]

/-- An image written from address 0 on is in the cells of its indices. -/
theorem read_writeBytes_zero_of_lt (image : List Byte) (m : Memory) (k : Nat) (hk : k < image.length)
    (hlen : image.length ≤ 256) : (m.writeBytes 0 image).read (BitVec.ofNat 8 k) = image[k] := by
  have h := read_writeBytes_inside image m 0 k hk (by simpa using hlen)
  simpa using h

/-- An image written from address 0 on leaves the remainder of memory alone. -/
theorem read_writeBytes_zero_of_le (image : List Byte) (m : Memory) (a : Byte) (ha : image.length ≤ a.toNat)
    (hlen : image.length ≤ 256) : (m.writeBytes 0 image).read a = m.read a :=
  read_writeBytes_outside image m 0 a (.inr (by simpa using ha)) (by simpa using hlen)

/-- Settles O54: the state after `load` is known whole, and a row of bytes from address 0 on that does not wrap is read
back inside and unseen outside. -/
theorem loadCopiesTheImageFromAddressZero : Obligations.LoadCopiesTheImageFromAddressZero :=
  fun image s hrun hlen => ⟨_, load_of_length_le image s hrun hlen, rfl,
    fun k hk => read_writeBytes_zero_of_lt image s.mem k hk hlen,
    fun a ha => read_writeBytes_zero_of_le image s.mem a ha hlen⟩

end Sys2Proof.Machine
end

section
/-! SUPPORT. The statement on the opcode map of 30_encoding.md: decoding behind an encoded instruction, and at a byte
that matches no row. -/

namespace Sys2Proof.Machine

/-- The decoder reads an instruction back from its own bytes, whatever follows them (30_encoding.md R51, R53). -/
theorem decode_encode_append (i : Instr) (rest : List Byte) : decode (encode i ++ rest) = .instr i rest := by
  cases i <;> rfl

/-- A byte that matches no row is illegal, whatever follows it (30_encoding.md R54). -/
theorem decode_cons_of_opcodeRow_eq_none (b0 : Byte) (rest : List Byte) (h : opcodeRow b0 = none) :
    decode (b0 :: rest) = .illegalOpcode b0 := by
  simp [decode, h]

/-- Settles O2: the bytes of each legal row are those of the encoded instruction with the operands, so the decoder reads
it back; the bytes 0 and from 16 up are those that match no row. -/
theorem opcodeByteAloneSelectsTheRow : Obligations.OpcodeByteAloneSelectsTheRow := fun b1 b2 b3 rest =>
  ⟨decode_encode_append (.loadConst b1 b2) rest,
    decode_encode_append (.move b1 b2) rest,
    decode_encode_append (.add b1 b2 b3) rest,
    decode_encode_append (.sub b1 b2 b3) rest,
    decode_encode_append (.mul b1 b2 b3) rest,
    decode_encode_append (.div b1 b2 b3) rest,
    decode_encode_append (.loadMem b1 b2) rest,
    decode_encode_append (.storeMem b1 b2) rest,
    decode_encode_append (.jump b1) rest,
    decode_encode_append (.jumpIfZero b1 b2) rest,
    decode_encode_append (.jumpIfNeg b1 b2) rest,
    decode_encode_append (.call b1) rest,
    decode_encode_append .ret rest,
    decode_encode_append .halt rest,
    decode_encode_append (.print b1) rest,
    fun b0 hillegal => decode_cons_of_opcodeRow_eq_none b0 rest ((opcodeRow_eq_none b0).mpr hillegal)⟩

end Sys2Proof.Machine
end

section
/-! SUPPORT. The statements on the step of 40_sequencer.md: the fetch, the effect the step runs, and the four ways in
which a run ends. -/

namespace Sys2Proof.Machine

/-- Settles O10: `pc` is a byte, so its successor is the sum modulo 256. -/
theorem fetchByteReadsAtPcAndAdvancesIt : Obligations.FetchByteReadsAtPcAndAdvancesIt := by
  intro s
  have hpc : s.pc + 1 = BitVec.ofNat 8 ((s.pc.toNat + 1) % 256) := by
    apply BitVec.eq_of_toNat_eq; simp [BitVec.toNat_add]
  rw [← hpc]; rfl

/-- The instructions a row yields are encoded by the opcode byte `b0` and their operand bytes in fetch order. -/
def EncodesWith (b0 : Byte) : OpcodeRow → Prop
  | .zero i => encode i = [b0]
  | .one mk => ∀ b1, encode (mk b1) = [b0, b1]
  | .two mk => ∀ b1 b2, encode (mk b1 b2) = [b0, b1, b2]
  | .three mk => ∀ b1 b2 b3, encode (mk b1 b2 b3) = [b0, b1, b2, b3]

/-- The opcode map and the encoder agree on the opcode byte of every row (30_encoding.md R53). -/
theorem encodesWith_of_opcodeRow {b0 : Byte} {row : OpcodeRow} (h : opcodeRow b0 = some row) : EncodesWith b0 row := by
  have hb0 : b0 = BitVec.ofNat 8 b0.toNat := by simp
  unfold opcodeRow at h
  split at h <;> cases h
  all_goals
    next hn =>
      rw [hn] at hb0
      simp [EncodesWith, encode, hb0]

/-- A row binds operand bytes from the front only: behind its opcode byte they are the instruction's encoding, and the
rest is what it leaves. -/
theorem cons_eq_encode_append_of_bind {row : OpcodeRow} {b0 : Byte} {bytes rest : List Byte} {i : Instr}
    (hrow : EncodesWith b0 row) (h : row.bind bytes = .instr i rest) : b0 :: bytes = encode i ++ rest := by
  unfold OpcodeRow.bind at h
  split at h <;> cases h <;> simp_all [EncodesWith]

/-- An instruction is read only where its own bytes stand (30_encoding.md R51, R53). -/
theorem eq_encode_append_of_decode {bytes rest : List Byte} {i : Instr} (h : decode bytes = .instr i rest) :
    bytes = encode i ++ rest := by
  cases bytes with
  | nil => cases h
  | cons b0 bytes =>
    cases hrow : opcodeRow b0 with
    | none => rw [decode_cons_of_opcodeRow_eq_none b0 bytes hrow] at h; cases h
    | some row => exact cons_eq_encode_append_of_bind (encodesWith_of_opcodeRow hrow) (by simpa [decode, hrow] using h)

/-- The bytes of a shorter read are the first of a longer one. -/
theorem take_readBytes (m : Memory) (a : Byte) {k n : Nat} (h : k ≤ n) : (m.readBytes a n).take k = m.readBytes a k := by
  induction k generalizing a n with
  | zero => rfl
  | succ k ih =>
    cases n with
    | zero => omega
    | succ n => rw [readBytes_succ, readBytes_succ, List.take_succ_cons, ih (a + 1) (by omega)]

/-- The family EncodeLength at every instruction (30_encoding.md R50, R57). -/
theorem encodeLength (i : Instr) : Laws.EncodeLength.Statement i := by
  cases i with
  | loadConst reg value => exact Laws.EncodeLength.loadConst reg value
  | move dest src => exact Laws.EncodeLength.move dest src
  | add dest src1 src2 => exact Laws.EncodeLength.add dest src1 src2
  | sub dest src1 src2 => exact Laws.EncodeLength.sub dest src1 src2
  | mul dest src1 src2 => exact Laws.EncodeLength.mul dest src1 src2
  | div dest src1 src2 => exact Laws.EncodeLength.div dest src1 src2
  | loadMem reg addr => exact Laws.EncodeLength.loadMem reg addr
  | storeMem addr reg => exact Laws.EncodeLength.storeMem addr reg
  | jump addr => exact Laws.EncodeLength.jump addr
  | jumpIfZero reg addr => exact Laws.EncodeLength.jumpIfZero reg addr
  | jumpIfNeg reg addr => exact Laws.EncodeLength.jumpIfNeg reg addr
  | call addr => exact Laws.EncodeLength.call addr
  | ret => exact Laws.EncodeLength.ret
  | halt => exact Laws.EncodeLength.halt
  | print reg => exact Laws.EncodeLength.print reg

/-- The bytes at `pc` of the instruction decoded there are its encoding (40_sequencer.md R72). -/
theorem readBytes_eq_encode_of_decoded {s : State} {i : Instr} {rest : List Byte} (h : s.decoded = .instr i rest) :
    s.mem.readBytes s.pc i.length = encode i := by
  obtain ⟨hlen, _, hle⟩ := encodeLength i
  calc s.mem.readBytes s.pc i.length
      = (s.mem.readBytes s.pc 4).take i.length := (take_readBytes _ _ hle).symm
    _ = (encode i ++ rest).take i.length := by rw [eq_encode_append_of_decode h]
    _ = encode i := List.take_left' hlen

/-- The step of a Running core at an instruction is the instruction's effect, after the fetch (40_sequencer.md R71). -/
theorem step_of_instr {s : State} {i : Instr} {rest : List Byte} (hrun : s.runState = .running)
    (h : s.decoded = .instr i rest) : step s = exec i (s.afterFetch i.length) := by
  simp [step, stepState, hrun, stepRunning, fetchInstr_of_instr s.traceAppend i rest h, afterFetch_eq]

/-- Settles O11: the fetch reads what the decoder reads, which is the instruction's own encoding. -/
theorem stepRunsTheDecodedInstruction : Obligations.StepRunsTheDecodedInstruction :=
  fun _ _ _ hrun h => ⟨readBytes_eq_encode_of_decoded h, step_of_instr hrun h⟩

/-- The effect of HALT is to end the run in HaltedOk (45_system_output.md R130). -/
theorem effect_halt {s t : State} (h : Effect .halt s t) : t = s.haltOk := by
  cases h with
  | halts _ => rfl
  | divisionByZero hz => exact absurd hz (not_dividesByZero (by simp))
  | _ => simp_all [Instr.WellFormed, Instr.regOperands, Instr.dest]

/-- A DIV divides by zero only with its operands in range: the index check comes first (40_sequencer.md R73). -/
theorem wellFormed_of_dividesByZero {s : State} {i : Instr} (h : s.DividesByZero i) : i.WellFormed := by
  obtain ⟨_, _, _, _, _, hwf, _⟩ := h; exact hwf

/-- The effect of an instruction with an operand out of range is IndexFault (40_sequencer.md R73). -/
theorem effect_of_not_wellFormed {i : Instr} {s t : State} (h : Effect i s t) (hwf : ¬ i.WellFormed) :
    t = s.raise .indexFault := by
  cases h with
  | indexFault _ => rfl
  | divisionByZero hz => exact absurd (wellFormed_of_dividesByZero hz) hwf
  | writes _ _ _ _ hwf' _ => exact absurd hwf' hwf
  | fallsThrough reg addr hr hi => rcases hi with rfl | rfl <;> exact absurd ((wellFormed_one rfl).2 hr) hwf
  | _ => simp_all [Instr.WellFormed, Instr.regOperands]

/-- The effect of a DIV by zero is DivisionByZero (42_arithmetic.md R103). -/
theorem effect_of_dividesByZero {i : Instr} {s t : State} (h : Effect i s t) (hz : s.DividesByZero i) :
    t = s.raise .divisionByZero := by
  cases h with
  | divisionByZero _ => rfl
  | indexFault hnwf => exact absurd (wellFormed_of_dividesByZero hz) hnwf
  | writes _ _ _ _ _ hnz => exact absurd hz hnz
  | _ => obtain ⟨_, _, _, _, rfl, _⟩ := hz; simp_all

/-- An effect with none of the causes that end a run leaves `run_state` and `error` alone (40_sequencer.md R75). -/
theorem effect_keeps_runState_error {i : Instr} {s t : State} (h : Effect i s t) (hne : i ≠ .halt)
    (hwf : i.WellFormed) (hz : ¬ s.DividesByZero i) : t.runState = s.runState ∧ t.error = s.error := by
  cases h with
  | halts hi => exact absurd hi hne
  | indexFault hnwf => exact absurd hwf hnwf
  | divisionByZero hz' => exact absurd hz' hz
  | _ => simp

/-- A step at an instruction has that instruction's effect, after the fetch. -/
theorem effect_of_step {s t : State} {i : Instr} {rest : List Byte} (h : step s = .next t)
    (hd : s.decoded = .instr i rest) : Effect i (s.afterFetch i.length) t :=
  exec_effect i _ t (by rw [← step_of_instr (running_of_step s t h) hd, h])

/-- A step at an illegal opcode byte raises InvalidOpcode, after one byte (30_encoding.md R54). -/
theorem eq_raise_of_step_illegal {s t : State} {b0 : Byte} (h : step s = .next t) (hd : s.decoded = .illegalOpcode b0) :
    t = (s.afterFetch 1).raise .invalidOpcode := by
  rcases step_cases s t h with ⟨_, _, ht⟩ | ⟨_, _, hd', _⟩
  · exact ht
  · cases hd.symm.trans hd'

/-- A raised error is read by the host as a failure of its kind (60_exceptions.md R147). -/
theorem raise_outcome (s : State) (e : ErrorKind) :
    (s.raise e).runState = .haltedError ∧ (s.raise e).error = some e ∧ (s.raise e).result.success = false :=
  ⟨rfl, rfl, rfl⟩

/-- Settles O18: the opcode byte or the effect of the decoded instruction says which row of the table applies; the fetch
before it touches neither `run_state` nor `error`. -/
theorem aRunEndsInExactlyFourWays : Obligations.ARunEndsInExactlyFourWays := by
  intro s t hrun herr hstep
  refine ⟨fun rest hd => ?halt, fun b0 hd => ?illegal, fun i rest hd hz => ?divides, fun i rest hd hwf => ?index,
    fun i rest hd hne hwf hz => ?goesOn⟩
  case halt => rw [effect_halt (effect_of_step hstep hd)]; exact ⟨rfl, herr, rfl⟩
  case illegal => rw [eq_raise_of_step_illegal hstep hd]; exact raise_outcome _ _
  case divides => rw [effect_of_dividesByZero (effect_of_step hstep hd) hz]; exact raise_outcome _ _
  case index => rw [effect_of_not_wellFormed (effect_of_step hstep hd) hwf]; exact raise_outcome _ _
  case goesOn =>
    obtain ⟨hr, he⟩ := effect_keeps_runState_error (effect_of_step hstep hd) hne hwf hz
    exact ⟨hr.trans hrun, he.trans herr⟩

end Sys2Proof.Machine
end

section
/-! SUPPORT. The statements on LOAD_CONST and MOVE of 41_data_move.md: each is its index check and one register write. -/

namespace Sys2Proof.Machine

/-- The meaning of LOAD_CONST (41_data_move.md R90). -/
theorem exec_loadConst (reg value : Byte) (s : State) :
    exec (.loadConst reg value) s = withReg reg s fun r => .next (s.writeReg r value) := rfl

/-- The meaning of MOVE (41_data_move.md R91): the source is read in the state before the write. -/
theorem exec_move (dest src : Byte) (s : State) :
    exec (.move dest src) s = withReg2 dest src s fun d r => .next (s.writeReg d (s.readReg r)) := rfl

/-- Settles O24: both operands pass the index check, or one of them raises IndexFault before the effect begins. -/
theorem moveCopiesARegister : Obligations.MoveCopiesARegister := by
  intro dest src s
  refine ⟨rfl, fun hd hs => ?inRange, fun hge => ?outOfRange⟩
  case inRange => rw [exec_move, withReg2_of_lt dest src s _ hd hs, readReg_mk]; rfl
  case outOfRange => rw [exec_move, withReg2_of_ge dest src s _ hge]; rfl

/-- Settles O23: the one register operand passes the index check, or it raises IndexFault. -/
theorem loadConstWritesTheImmediate : Obligations.LoadConstWritesTheImmediate := by
  intro reg value s
  refine ⟨rfl, fun hr => ?inRange, fun hge => ?outOfRange⟩
  case inRange => rw [exec_loadConst, withReg_of_lt reg s _ hr]; rfl
  case outOfRange => rw [exec_loadConst, withReg_of_ge reg s _ hge]; rfl

end Sys2Proof.Machine
end

section
/-! SUPPORT. The statements on ADD, SUB, MUL and DIV of 42_arithmetic.md: the arithmetic of bytes first, then the index
check and the register write that the four instructions have in common. -/

namespace Sys2Proof.Machine

/-! ### The byte operations -/

theorem toNat_addByte (a b : Byte) : (addByte a b).toNat = (a.toNat + b.toNat) % 256 :=
  BitVec.toNat_ofNat _ _

theorem toNat_mulByte (a b : Byte) : (mulByte a b).toNat = (a.toNat * b.toNat) % 256 :=
  BitVec.toNat_ofNat _ _

/-- The difference is the non-negative residue of the exact integer, which may be negative. -/
theorem natCast_toNat_subByte (a b : Byte) :
    ((subByte a b).toNat : Int) = ((a.toNat : Int) - (b.toNat : Int)) % 256 := by
  rw [subByte, BitVec.toNat_ofInt]
  exact Int.toNat_of_nonneg (Int.emod_nonneg _ (by decide))

/-- The quotient needs no narrowing: it is at most the dividend. -/
theorem toNat_divByte (a b : Byte) : (divByte a b).toNat = a.toNat / b.toNat := by
  rw [divByte, BitVec.toNat_ofNat]
  exact Nat.mod_eq_of_lt ((Nat.div_le_self _ _).trans_lt a.isLt)

theorem addByte_eq_add (a b : Byte) : addByte a b = a + b := (BitVec.add_def a b).symm

theorem mulByte_eq_mul (a b : Byte) : mulByte a b = a * b :=
  BitVec.eq_of_toNat_eq ((toNat_mulByte a b).trans (BitVec.toNat_mul a b).symm)

theorem subByte_eq_sub (a b : Byte) : subByte a b = a - b := by
  have hres := natCast_toNat_subByte a b
  apply BitVec.eq_of_toNat_eq
  rw [BitVec.toNat_sub]
  omega

theorem addByte_eq_ofNat_mod (a b : Byte) : addByte a b = BitVec.ofNat 8 ((a.toNat + b.toNat) % 256) := by
  rw [← toNat_addByte, BitVec.ofNat_toNat, BitVec.setWidth_eq]

theorem mulByte_eq_ofNat_mod (a b : Byte) : mulByte a b = BitVec.ofNat 8 ((a.toNat * b.toNat) % 256) := by
  rw [← toNat_mulByte, BitVec.ofNat_toNat, BitVec.setWidth_eq]

/-- A difference that does not borrow is exact. -/
theorem toNat_subByte_of_le {a b : Byte} (h : b.toNat ≤ a.toNat) : (subByte a b).toNat = a.toNat - b.toNat := by
  rw [subByte_eq_sub]; exact BitVec.toNat_sub_of_le h

/-- A difference that borrows comes out 256 above the exact, negative one. -/
theorem toNat_subByte_of_lt {a b : Byte} (h : a.toNat < b.toNat) :
    (subByte a b).toNat = a.toNat + 256 - b.toNat := by
  have hres := natCast_toNat_subByte a b
  omega

/-- The two cases of 42_arithmetic.md R101 as one value. -/
theorem subByte_eq_ofNat_ite (a b : Byte) : subByte a b =
    BitVec.ofNat 8 (if b.toNat ≤ a.toNat then a.toNat - b.toNat else a.toNat + 256 - b.toNat) := by
  split
  · next hle => rw [← toNat_subByte_of_le hle, BitVec.ofNat_toNat, BitVec.setWidth_eq]
  · next hlt => rw [← toNat_subByte_of_lt (Nat.lt_of_not_le hlt), BitVec.ofNat_toNat, BitVec.setWidth_eq]

/-- The quotient times the divisor is at most the dividend, so MUL after DIV is exact. -/
theorem toNat_mulByte_divByte (a b : Byte) : (mulByte (divByte a b) b).toNat = a.toNat / b.toNat * b.toNat := by
  rw [toNat_mulByte, toNat_divByte]
  exact Nat.mod_eq_of_lt ((Nat.div_mul_le_self _ _).trans_lt a.isLt)

/-- The remainder that a program computes with DIV, MUL and SUB (42_arithmetic.md R104). -/
theorem toNat_remainder (a b : Byte) : (subByte a (mulByte (divByte a b) b)).toNat = a.toNat % b.toNat := by
  have hle : (mulByte (divByte a b) b).toNat ≤ a.toNat := by
    rw [toNat_mulByte_divByte]; exact Nat.div_mul_le_self _ _
  rw [toNat_subByte_of_le hle, toNat_mulByte_divByte, Nat.mod_eq_sub_div_mul]

theorem divByte_mul_le (a b : Byte) : (divByte a b).toNat * b.toNat ≤ a.toNat := by
  rw [toNat_divByte]; exact Nat.div_mul_le_self _ _

theorem lt_succ_divByte_mul (a : Byte) {b : Byte} (hb : b ≠ 0) : a.toNat < ((divByte a b).toNat + 1) * b.toNat := by
  have hpos : 0 < b.toNat := Nat.pos_of_ne_zero fun h => hb (BitVec.eq_of_toNat_eq h)
  rw [toNat_divByte, Nat.succ_mul]
  exact Nat.lt_div_mul_add hpos

/-! ### The instructions -/

/-- The meaning that ADD, SUB and MUL share (`exec_add`, `exec_sub`, `exec_mul`): both sources are read in the state before
the write. -/
def execBinary (op : Byte → Byte → Byte) (dest src1 src2 : Byte) (s : State) : Answer :=
  withReg3 dest src1 src2 s fun d r1 r2 => .next (s.writeReg d (op (s.readReg r1) (s.readReg r2)))

theorem exec_add (dest src1 src2 : Byte) (s : State) :
    exec (.add dest src1 src2) s = execBinary addByte dest src1 src2 s := rfl

theorem exec_sub (dest src1 src2 : Byte) (s : State) :
    exec (.sub dest src1 src2) s = execBinary subByte dest src1 src2 s := rfl

theorem exec_mul (dest src1 src2 : Byte) (s : State) :
    exec (.mul dest src1 src2) s = execBinary mulByte dest src1 src2 s := rfl

/-- With all operands in range, the result is written to the destination and nothing else changes. -/
theorem execBinary_of_lt (op : Byte → Byte → Byte) {dest src1 src2 : Byte} (s : State)
    (hd : dest.toNat < 8) (h1 : src1.toNat < 8) (h2 : src2.toNat < 8) :
    execBinary op dest src1 src2 s =
      .next { s with regs := s.regs.set dest.toNat (op s.regs[src1.toNat] s.regs[src2.toNat]) hd } := by
  rw [execBinary, withReg3_of_lt dest src1 src2 s _ hd h1 h2, readReg_mk, readReg_mk]; rfl

/-- An operand out of range raises IndexFault and changes nothing else. -/
theorem execBinary_of_ge (op : Byte → Byte → Byte) {dest src1 src2 : Byte} (s : State)
    (hge : 8 ≤ dest.toNat ∨ 8 ≤ src1.toNat ∨ 8 ≤ src2.toNat) :
    execBinary op dest src1 src2 s = .next { s with runState := .haltedError, error := some .indexFault } :=
  withReg3_of_ge dest src1 src2 s _ hge

/-- With all operands in range, the divisor alone decides what DIV does (42_arithmetic.md R103). -/
theorem exec_div_of_lt {dest src1 src2 : Byte} (s : State)
    (hd : dest.toNat < 8) (h1 : src1.toNat < 8) (h2 : src2.toNat < 8) :
    exec (.div dest src1 src2) s =
      if s.regs[src2.toNat] = 0 then .next (s.raise .divisionByZero)
      else .next (s.writeReg ⟨dest.toNat, hd⟩ (divByte s.regs[src1.toNat] s.regs[src2.toNat])) := by
  rw [exec, execDiv, withReg3_of_lt dest src1 src2 s _ hd h1 h2, readReg_mk, readReg_mk]

/-- DIV by a divisor other than 0 writes the quotient. -/
theorem exec_div_of_ne_zero {dest src1 src2 : Byte} (s : State)
    (hd : dest.toNat < 8) (h1 : src1.toNat < 8) (h2 : src2.toNat < 8) (hz : s.regs[src2.toNat] ≠ 0) :
    exec (.div dest src1 src2) s =
      .next { s with regs := s.regs.set dest.toNat (divByte s.regs[src1.toNat] s.regs[src2.toNat]) hd } :=
  (exec_div_of_lt s hd h1 h2).trans (if_neg hz)

/-- DIV by 0 raises DivisionByZero and writes no register. -/
theorem exec_div_of_eq_zero {dest src1 src2 : Byte} (s : State)
    (hd : dest.toNat < 8) (h1 : src1.toNat < 8) (h2 : src2.toNat < 8) (hz : s.regs[src2.toNat] = 0) :
    exec (.div dest src1 src2) s = .next { s with runState := .haltedError, error := some .divisionByZero } :=
  (exec_div_of_lt s hd h1 h2).trans (if_pos hz)

/-- DIV with an operand out of range raises IndexFault, whatever the divisor (42_arithmetic.md R103). -/
theorem exec_div_of_ge {dest src1 src2 : Byte} (s : State)
    (hge : 8 ≤ dest.toNat ∨ 8 ≤ src1.toNat ∨ 8 ≤ src2.toNat) :
    exec (.div dest src1 src2) s = .next { s with runState := .haltedError, error := some .indexFault } :=
  withReg3_of_ge dest src1 src2 s _ hge

/-- Settles O25: the sum written is the residue modulo 256; the index check covers all three operands. -/
theorem addWritesTheSumModulo256 : Obligations.AddWritesTheSumModulo256 := by
  intro dest src1 src2 s
  refine ⟨rfl, fun hd h1 h2 => ?inRange, execBinary_of_ge addByte s⟩
  case inRange => rw [exec_add, execBinary_of_lt addByte s hd h1 h2, addByte_eq_ofNat_mod]

/-- Settles O26: the residue of the difference is the exact one, or 256 more where that is negative. -/
theorem subWritesTheDifferenceModulo256 : Obligations.SubWritesTheDifferenceModulo256 := by
  intro dest src1 src2 s
  refine ⟨rfl, fun hd h1 h2 => ?inRange, execBinary_of_ge subByte s⟩
  case inRange => rw [exec_sub, execBinary_of_lt subByte s hd h1 h2, subByte_eq_ofNat_ite]

/-- Settles O27: the product written is the residue modulo 256; the index check covers all three operands. -/
theorem mulWritesTheProductModulo256 : Obligations.MulWritesTheProductModulo256 := by
  intro dest src1 src2 s
  refine ⟨rfl, fun hd h1 h2 => ?inRange, execBinary_of_ge mulByte s⟩
  case inRange => rw [exec_mul, execBinary_of_lt mulByte s hd h1 h2, mulByte_eq_ofNat_mod]

/-- Settles O28: the index check comes first, then the divisor decides between the quotient and DivisionByZero. -/
theorem divWritesTheFloorOfTheQuotient : Obligations.DivWritesTheFloorOfTheQuotient := fun _ _ _ s =>
  ⟨rfl, exec_div_of_ne_zero s, exec_div_of_eq_zero s, exec_div_of_ge s⟩

/-- Settles O29: the byte operations are those of the integers modulo 256, and each instruction writes the result of its
operation. -/
theorem arithmeticIsModulo256OnUnsignedBytes : Obligations.ArithmeticIsModulo256OnUnsignedBytes := by
  refine ⟨fun a b => ?results, ?written⟩
  case results =>
    exact ⟨toNat_addByte a b, natCast_toNat_subByte a b, toNat_mulByte a b,
      addByte_eq_add a b, subByte_eq_sub a b, mulByte_eq_mul a b,
      fun hb => ⟨divByte_mul_le a b, lt_succ_divByte_mul a hb, toNat_remainder a b⟩⟩
  case written =>
    rintro dest src1 src2 s hd h1 h2 _ _ rfl rfl
    exact ⟨execBinary_of_lt addByte s hd h1 h2, execBinary_of_lt subByte s hd h1 h2,
      execBinary_of_lt mulByte s hd h1 h2, exec_div_of_ne_zero s hd h1 h2, exec_div_of_eq_zero s hd h1 h2⟩

end Sys2Proof.Machine
end

section
/-! SUPPORT. The statements on LOAD_MEM and STORE_MEM of 43_memory_access.md: each is its index check and one access to
the cell at its address operand. -/

namespace Sys2Proof.Machine

/-- The meaning of LOAD_MEM (43_memory_access.md R110). -/
theorem exec_loadMem (reg addr : Byte) (s : State) :
    exec (.loadMem reg addr) s = withReg reg s fun r => .next (s.writeReg r (s.mem.read addr)) := rfl

/-- The meaning of STORE_MEM (43_memory_access.md R111). -/
theorem exec_storeMem (addr reg : Byte) (s : State) :
    exec (.storeMem addr reg) s = withReg reg s fun r => .next (s.writeMem addr (s.readReg r)) := rfl

/-- With its register operand in range, STORE_MEM is one memory write. -/
theorem exec_storeMem_of_lt (addr : Byte) {reg : Byte} (s : State) (hr : reg.toNat < 8) :
    exec (.storeMem addr reg) s = .next (s.writeMem addr s.regs[reg.toNat]) := by
  rw [exec_storeMem, withReg_of_lt reg s _ hr, readReg_mk]

/-- A cell just written reads as the value. -/
theorem read_writeMem_same (s : State) (a v : Byte) : (s.writeMem a v).mem.read a = v := by
  rw [writeMem_mem, read_write, if_pos rfl]

/-- A write to one cell leaves every other cell as it was. -/
theorem read_writeMem_of_ne (s : State) {a b : Byte} (v : Byte) (h : b ≠ a) :
    (s.writeMem a v).mem.read b = s.mem.read b := by
  rw [writeMem_mem, read_write, if_neg h]

/-- Settles O30: the register operand passes the index check and takes the cell's value, or it raises IndexFault. -/
theorem loadMemReadsTheCell : Obligations.LoadMemReadsTheCell := by
  intro reg addr s
  refine ⟨rfl, fun hr => ?inRange, fun hge => ?outOfRange⟩
  case inRange => rw [exec_loadMem, withReg_of_lt reg s _ hr]; rfl
  case outOfRange => rw [exec_loadMem, withReg_of_ge reg s _ hge]; rfl

/-- Settles O31: in range the effect is one memory write, of which read-over-write gives every cell; out of range the
index check raises IndexFault before the write. -/
theorem storeMemWritesTheCell : Obligations.StoreMemWritesTheCell := by
  intro addr reg s
  refine ⟨rfl, fun hr => ?inRange, fun hge => ?outOfRange⟩
  case inRange =>
    exact ⟨_, exec_storeMem_of_lt addr s hr, rfl, read_writeMem_same s addr _,
      fun _ hne => read_writeMem_of_ne s _ hne⟩
  case outOfRange => rw [exec_storeMem, withReg_of_ge reg s _ hge]; rfl

end Sys2Proof.Machine
end

section
/-! SUPPORT. The statements on JUMP, JUMP_IF_ZERO, JUMP_IF_NEG, CALL and RETURN of 44_control_flow.md: the meaning of
each, and the index check and test that the two conditional jumps have in common. -/

namespace Sys2Proof.Machine

/-! ### The conditional jumps -/

/-- Bit 7 of a byte is set exactly in its upper half (44_control_flow.md R122). -/
theorem getLsbD_seven_iff (v : Byte) : v.getLsbD 7 = true ↔ 128 ≤ v.toNat := by
  rw [← v.msb_eq_getLsbD_last, BitVec.msb_eq_decide, decide_eq_true_iff]

theorem isNeg_eq_false_of_lt {v : Byte} (h : v.toNat < 128) : isNeg v = false :=
  Bool.eq_false_iff.mpr fun hneg => Nat.not_le_of_lt h ((isNeg_iff v).mp hneg)

theorem isZero_eq_false_of_ne {v : Byte} (h : v ≠ 0) : isZero v = false :=
  Bool.eq_false_iff.mpr fun hzero => h ((isZero_iff v).mp hzero)

/-- The meaning that JUMP_IF_ZERO and JUMP_IF_NEG share (`exec_jumpIfZero`, `exec_jumpIfNeg`): one test of the register
decides whether `pc` is set. -/
def execJumpIf (test : Byte → Bool) (reg addr : Byte) (s : State) : Answer :=
  withReg reg s fun r => .next (if test (s.readReg r) then s.setPc addr else s)

/-- The meaning of JUMP_IF_ZERO (44_control_flow.md R121). -/
theorem exec_jumpIfZero (reg addr : Byte) (s : State) :
    exec (.jumpIfZero reg addr) s = execJumpIf isZero reg addr s := rfl

/-- The meaning of JUMP_IF_NEG (44_control_flow.md R122). -/
theorem exec_jumpIfNeg (reg addr : Byte) (s : State) :
    exec (.jumpIfNeg reg addr) s = execJumpIf isNeg reg addr s := rfl

/-- A conditional jump whose test succeeds is taken. -/
theorem execJumpIf_of_true (test : Byte → Bool) {reg : Byte} (addr : Byte) (s : State) (hr : reg.toNat < 8)
    (ht : test s.regs[reg.toNat] = true) : execJumpIf test reg addr s = .next { s with pc := addr } := by
  rw [execJumpIf, withReg_of_lt reg s _ hr, readReg_mk, if_pos ht]; rfl

/-- A conditional jump whose test fails has no effect. -/
theorem execJumpIf_of_false (test : Byte → Bool) {reg : Byte} (addr : Byte) (s : State) (hr : reg.toNat < 8)
    (ht : test s.regs[reg.toNat] = false) : execJumpIf test reg addr s = .next s := by
  rw [execJumpIf, withReg_of_lt reg s _ hr, readReg_mk, ht]; rfl

/-- A conditional jump on a register out of range raises IndexFault and changes nothing else. -/
theorem execJumpIf_of_ge (test : Byte → Bool) {reg : Byte} (addr : Byte) (s : State) (hge : 8 ≤ reg.toNat) :
    execJumpIf test reg addr s = .next { s with runState := .haltedError, error := some .indexFault } :=
  withReg_of_ge reg s _ hge

/-- Settles O34: the test of the register in range succeeds exactly at 0; out of range the index check comes first. -/
theorem jumpIfZeroJumpsOnZero : Obligations.JumpIfZeroJumpsOnZero := by
  intro reg addr s
  refine ⟨rfl, fun hr hz => ?taken, fun hr hnz => ?notTaken, execJumpIf_of_ge isZero addr s⟩
  case taken => rw [exec_jumpIfZero, execJumpIf_of_true isZero addr s hr ((isZero_iff _).mpr hz)]
  case notTaken => rw [exec_jumpIfZero, execJumpIf_of_false isZero addr s hr (isZero_eq_false_of_ne hnz)]

/-- Settles O35: the test of the register in range succeeds exactly from 128 on, which is where bit 7 is set; out of
range the index check comes first. -/
theorem jumpIfNegJumpsOnBit7 : Obligations.JumpIfNegJumpsOnBit7 := by
  intro reg addr s
  refine ⟨rfl, fun _ => getLsbD_seven_iff _, fun hr hge => ?taken, fun hr hlt => ?notTaken,
    execJumpIf_of_ge isNeg addr s⟩
  case taken => rw [exec_jumpIfNeg, execJumpIf_of_true isNeg addr s hr ((isNeg_iff _).mpr hge)]
  case notTaken => rw [exec_jumpIfNeg, execJumpIf_of_false isNeg addr s hr (isNeg_eq_false_of_lt hlt)]

/-! ### JUMP, CALL and RETURN -/

/-- The meaning of JUMP (44_control_flow.md R120). -/
theorem exec_jump (addr : Byte) (s : State) : exec (.jump addr) s = .next (s.setPc addr) := rfl

/-- The meaning of CALL (44_control_flow.md R123): `pc` is pushed before it is overwritten. -/
theorem exec_call (addr : Byte) (s : State) : exec (.call addr) s = .next ((s.push s.pc).setPc addr) := rfl

/-- The meaning of RETURN (44_control_flow.md R124). -/
theorem exec_ret (s : State) : exec .ret s = .next s.popToPc := rfl

/-- RETURN with values on the stack takes the last one pushed into `pc`. -/
theorem exec_ret_of_concat {s : State} {l : List Byte} {v : Byte} (h : s.cs = l ++ [v]) :
    exec .ret s = .next { s with cs := l, pc := v } := by
  rw [exec_ret, popToPc_concat s l v h]

/-- RETURN on an empty stack has no effect. -/
theorem exec_ret_of_nil {s : State} (h : s.cs = []) : exec .ret s = .next s := by
  rw [exec_ret, popToPc_nil s h]

/-- Settles O33: the effect is to set `pc` to the operand. -/
theorem jumpSetsPc : Obligations.JumpSetsPc := fun addr s => ⟨rfl, exec_jump addr s⟩

/-- Settles O36: the step is the effect after the fetch of two bytes, so the `pc` it pushes is the next address. -/
theorem callPushesTheNextAddressAndJumps : Obligations.CallPushesTheNextAddressAndJumps := by
  intro addr s
  refine ⟨rfl, exec_call addr s, fun rest hrun hd => ?step⟩
  case step => rw [step_of_instr hrun hd, exec_call]; rfl

/-- Settles O37: the two cases of the stack; the step is the effect after the fetch of one byte, and on an empty stack
`pc` stays where that fetch left it. -/
theorem returnPopsIntoPcOrFallsThrough : Obligations.ReturnPopsIntoPcOrFallsThrough := by
  intro s
  refine ⟨rfl, fun _ _ hcs => exec_ret_of_concat hcs, exec_ret_of_nil, fun rest hrun hd hcs => ?step⟩
  case step => rw [step_of_instr hrun hd, exec_ret_of_nil (s := s.afterFetch _) hcs]; rfl

end Sys2Proof.Machine
end

section
/-! SUPPORT. The statements on HALT and PRINT of 45_system_output.md: HALT as the one effect that ends a run in
HaltedOk, and `Dec` as the base-ten digits of the library. -/

namespace Sys2Proof.Machine

/-! ### HALT -/

/-- The meaning of HALT (45_system_output.md R130). -/
theorem exec_halt (s : State) : exec .halt s = .next s.haltOk := rfl

/-- The record read out of a state reports success exactly in HaltedOk (40_sequencer.md R76). -/
theorem result_success_iff (s : State) : s.result.success = true ↔ s.runState = .haltedOk := decide_eq_true_iff

/-- Of the effects of a Running core, that of HALT alone ends in HaltedOk: an error ends in HaltedError, and every other
effect leaves `run_state` alone (40_sequencer.md R75). -/
theorem effect_haltedOk_iff {i : Instr} {s t : State} (h : Effect i s t) (hrun : s.runState = .running) :
    t.runState = .haltedOk ↔ i = .halt := by
  refine ⟨fun ht => ?onlyHalt, fun hi => ?halt⟩
  case halt => subst hi; rw [effect_halt h, haltOk_runState]
  case onlyHalt =>
    cases h with
    | halts hi => exact hi
    | indexFault _ => simp at ht
    | divisionByZero _ => simp at ht
    | _ => simp [hrun] at ht

/-- A step ends in HaltedOk exactly when the instruction it executes is HALT (45_system_output.md R130). -/
theorem step_haltedOk_iff {s t : State} (h : step s = .next t) :
    t.runState = .haltedOk ↔ ∃ rest, s.decoded = .instr .halt rest := by
  rcases step_cases s t h with ⟨b0, hd, rfl⟩ | ⟨i, rest, hd, _, he⟩
  · simp [hd]
  · rw [effect_haltedOk_iff he (running_of_step s t h), hd]
    simp

/-- Settles O38: the step is the effect after the fetch of one byte; that nothing else ends a run with success is said
once for effects and carried to steps. -/
theorem haltEndsTheRunCleanly : Obligations.HaltEndsTheRunCleanly := by
  intro s
  refine ⟨rfl, exec_halt s, fun t h => ?terminal, fun rest hrun hd => ?step, fun t h => ?onlyHalt⟩
  case terminal => cases running_of_step _ t h
  case step => rw [step_of_instr hrun hd, exec_halt]; rfl
  case onlyHalt => exact ⟨step_haltedOk_iff h, (result_success_iff t).trans (step_haltedOk_iff h)⟩

/-! ### PRINT -/

/-- The meaning of PRINT (45_system_output.md R131). -/
theorem exec_print (reg : Byte) (s : State) :
    exec (.print reg) s = withReg reg s fun r => .next (s.outAppend (dec (s.readReg r))) := rfl

/-- The model's digit characters are the library's. -/
theorem digit_eq_digitChar {d : Nat} (h : d < 10) : digit d = d.digitChar := by
  interval_cases d <;> rfl

/-- `Dec(v)` is the base-ten numeral of the library (45_system_output.md R132): its three cases are the numerals of one,
two and three digits. -/
theorem dec_eq_toDigits (v : Byte) : dec v = Nat.toDigits 10 v.toNat := by
  have hv : v.toNat < 256 := v.isLt
  unfold dec
  by_cases h1 : v.toNat < 10
  · rw [if_pos h1, Nat.toDigits_of_lt_base h1, digit_eq_digitChar h1]
  have hlast : digit (v.toNat % 10) = (v.toNat % 10).digitChar := digit_eq_digitChar (by omega)
  rw [if_neg h1, Nat.toDigits_of_base_le (by decide) (by omega), hlast]
  by_cases h2 : v.toNat < 100
  · rw [if_pos h2, Nat.toDigits_of_lt_base (by omega), digit_eq_digitChar (by omega)]
    rfl
  · rw [if_neg h2, Nat.toDigits_of_base_le (by decide) (by omega), Nat.toDigits_of_lt_base (by omega),
      Nat.div_div_eq_div_mul, digit_eq_digitChar (by omega), digit_eq_digitChar (by omega)]
    rfl

/-- Settles O39: the register operand passes the index check and its numeral is appended, or it raises IndexFault. -/
theorem printAppendsTheDecimalNumeral : Obligations.PrintAppendsTheDecimalNumeral := by
  intro reg s
  refine ⟨rfl, fun hr => ?inRange, fun hge => ?outOfRange⟩
  case inRange => rw [exec_print, withReg_of_lt reg s _ hr, readReg_mk, dec_eq_toDigits]; rfl
  case outOfRange => rw [exec_print, withReg_of_ge reg s _ hge]; rfl

end Sys2Proof.Machine
end

section
/-! SUPPORT. The statements on errors and the trace of 60_exceptions.md: the entries a run appends, the three ways a step
can fail and the state each leaves, and which bytes at `pc` are an illegal opcode. -/

namespace Sys2Proof.Machine

/-! ### The trace -/

/-- A run of `n` steps appends `n` entries, the `k`-th captured in the state before step `k` (60_exceptions.md R152). -/
theorem runSteps_trace {n : Nat} {s t : State} (h : runSteps n s = .next t) :
    ∃ entries : List TraceEntry, t.trace = s.trace ++ entries ∧ entries.length = n ∧
      ∀ (k : Nat) (u : State), k < n → runSteps k s = .next u → entries[k]? = some ⟨u.pc, u.regs⟩ := by
  induction n generalizing s with
  | zero => cases h; exact ⟨[], by simp, rfl, by simp⟩
  | succ n ih =>
    obtain ⟨s', hstep, hrest⟩ := exists_of_runSteps_succ n s t h
    obtain ⟨entries, htrace, hlen, hentry⟩ := ih hrest
    refine ⟨⟨s.pc, s.regs⟩ :: entries, ?trace, by simp [hlen], fun k u hk hu => ?entry⟩
    case trace => simp [htrace, step_trace s s' hstep]
    case entry =>
      cases k with
      | zero => cases hu; rfl
      | succ k => exact hentry k u (by omega) (by rwa [runSteps_succ k s s' hstep] at hu)

/-- Only a Running core takes an image (40_sequencer.md R80). -/
theorem running_of_load {image : List Byte} {s t : State} (h : load image s = .next t) : s.runState = .running := by
  unfold load at h
  cases hr : s.runState <;> simp [hr] at h ⊢

/-- A `load` that succeeds writes memory and `pc` only (20_memory.md R42). -/
theorem eq_of_load {image : List Byte} {s t : State} (h : load image s = .next t) :
    t = { s with mem := s.mem.writeBytes 0 image, pc := 0 } := by
  have hrun := running_of_load h
  by_cases hlen : image.length ≤ 256
  · rw [load_of_length_le image s hrun hlen] at h; cases h; rfl
  · simp [load, hrun, Nat.not_le.mp hlen] at h

/-- Settles O51: the appended entries stand behind the old ones; after reset and `load` there are no old ones, and the
first step starts at address 0 with all registers 0. -/
theorem theTraceRecordsEveryStep : Obligations.TheTraceRecordsEveryStep := by
  refine ⟨fun n s t h => ?anyRun, fun image n s t hload h => ?afterReset⟩
  case anyRun =>
    obtain ⟨entries, htrace, hlen, hentry⟩ := runSteps_trace h
    rw [htrace]
    refine ⟨by simp [hlen], fun k hk => List.getElem?_append_left hk, fun k u hk hu => ?_⟩
    rw [List.getElem?_append_right (Nat.le_add_right _ _), Nat.add_sub_cancel_left]
    exact hentry k u hk hu
  case afterReset =>
    obtain ⟨entries, htrace, _, hentry⟩ := runSteps_trace h
    have hfirst := hentry 0 s (Nat.succ_pos n) rfl
    cases eq_of_load hload
    rw [htrace]
    exact hfirst

/-! ### The ways a step can fail -/

/-- Everything an effect does to `run_state` and `error`: the index check or the zero divisor raises an error in the
state the effect runs in, or no error is raised at all (60_exceptions.md section 1). -/
theorem effect_error_cases {i : Instr} {s t : State} (h : Effect i s t) (hsafe : s.Safe) :
    (¬ i.WellFormed ∧ t = s.raise .indexFault) ∨ (s.DividesByZero i ∧ t = s.raise .divisionByZero) ∨
      (t.Safe ∧ t.error = s.error) := by
  cases h with
  | indexFault hwf => exact .inl ⟨hwf, rfl⟩
  | divisionByZero hz => exact .inr (.inl ⟨hz, rfl⟩)
  | halts _ => exact .inr (.inr ⟨by simp [State.Safe], rfl⟩)
  | _ => exact .inr (.inr (by simpa [State.Safe] using hsafe))

/-- Everything a step does to `run_state` and `error`: each error has its cause, and is raised in the state after the
fetch; without a cause no error is raised (60_exceptions.md sections 1 and 3). -/
theorem step_error_cases {s t : State} (h : step s = .next t) :
    (∃ b0, s.decoded = .illegalOpcode b0 ∧ t = (s.afterFetch 1).raise .invalidOpcode) ∨
    (∃ i rest, s.decoded = .instr i rest ∧ ¬ i.WellFormed ∧ t = (s.afterFetch i.length).raise .indexFault) ∨
    (∃ i rest, s.decoded = .instr i rest ∧ s.DividesByZero i ∧ t = (s.afterFetch i.length).raise .divisionByZero) ∨
      (t.Safe ∧ t.error = s.error) := by
  have hsafe : s.Safe := by simp [State.Safe, running_of_step s t h]
  rcases step_cases s t h with ⟨b0, hd, ht⟩ | ⟨i, rest, hd, _, he⟩
  · exact .inl ⟨b0, hd, ht⟩
  · rcases effect_error_cases he hsafe with ⟨hwf, ht⟩ | ⟨hz, ht⟩ | hs
    · exact .inr (.inl ⟨i, rest, hd, hwf, ht⟩)
    · exact .inr (.inr (.inl ⟨i, rest, hd, hz, ht⟩))
    · exact .inr (.inr (.inr hs))

/-! ### InvalidOpcode -/

/-- A row of the opcode map binds an instruction or runs out of bytes; it makes no byte illegal. -/
theorem bind_ne_illegalOpcode (row : OpcodeRow) (bytes : List Byte) (b : Byte) : row.bind bytes ≠ .illegalOpcode b := by
  unfold OpcodeRow.bind
  split <;> simp

/-- The byte at `pc` alone decides whether the opcode is illegal (30_encoding.md R54). -/
theorem decoded_illegalOpcode_iff (s : State) :
    (∃ b0, s.decoded = .illegalOpcode b0) ↔ (s.mem.read s.pc).toNat = 0 ∨ 16 ≤ (s.mem.read s.pc).toNat := by
  rw [← opcodeRow_eq_none, State.decoded, readBytes_succ]
  cases hrow : opcodeRow (s.mem.read s.pc) with
  | none => simp [decode_cons_of_opcodeRow_eq_none _ _ hrow]
  | some row => simp [decode, hrow, bind_ne_illegalOpcode]

/-- The step of a Running core at an illegal opcode raises InvalidOpcode, after the fetch of one byte (60_exceptions.md
R141). -/
theorem step_of_illegal {s : State} {b0 : Byte} (hrun : s.runState = .running) (h : s.decoded = .illegalOpcode b0) :
    step s = .next ((s.afterFetch 1).raise .invalidOpcode) := by
  rw [← afterFetch_eq]
  simp [step, stepState, hrun, stepRunning, fetchInstr_of_illegal s.traceAppend b0 h]

/-- Settles O12: the byte at `pc` says whether the step is that of an illegal opcode; of the ways to fail only that one
ends in InvalidOpcode. -/
theorem illegalOpcodeRaisesInvalidOpcode : Obligations.IllegalOpcodeRaisesInvalidOpcode := by
  refine fun s hrun => ⟨fun hbyte => ?illegal, fun hbyte herr t h => ?legal⟩
  case illegal =>
    obtain ⟨b0, hd⟩ := (decoded_illegalOpcode_iff s).mpr hbyte
    rw [step_of_illegal hrun hd]; rfl
  case legal =>
    rcases step_error_cases h with ⟨b0, hd, _⟩ | ⟨_, _, _, _, rfl⟩ | ⟨_, _, _, _, rfl⟩ | ⟨_, he⟩
    · have := (decoded_illegalOpcode_iff s).mp ⟨b0, hd⟩
      omega
    · simp
    · simp
    · simp [he, herr]

/-! ### DivisionByZero -/

/-- The meaning of a DIV by zero is to raise DivisionByZero (60_exceptions.md R142). -/
theorem exec_of_dividesByZero {i : Instr} {s : State} (hz : s.DividesByZero i) :
    exec i s = .next (s.raise .divisionByZero) := by
  obtain ⟨t, h⟩ := exec_next i s
  rw [h, effect_of_dividesByZero (exec_effect i s t h) hz]

/-- A DIV by zero is a DIV, of four bytes (30_encoding.md R57). -/
theorem length_of_dividesByZero {i : Instr} {s : State} (hz : s.DividesByZero i) : i.length = 4 := by
  obtain ⟨_, _, _, _, rfl, _⟩ := hz; rfl

/-- Settles O14: the fetch changes no register, so the divisor is zero when the effect runs; of the ways to fail only
that of such a DIV ends in DivisionByZero. -/
theorem onlyDivByZeroRaisesDivisionByZero : Obligations.OnlyDivByZeroRaisesDivisionByZero := by
  refine fun s hrun => ⟨fun i rest hd hz => ?raises, fun herr t h ht => ?only⟩
  case raises =>
    have hz' : (s.afterFetch 4).DividesByZero i := hz
    rw [step_of_instr hrun hd, length_of_dividesByZero hz, exec_of_dividesByZero hz']; rfl
  case only =>
    rcases step_error_cases h with ⟨_, _, rfl⟩ | ⟨_, _, _, _, rfl⟩ | ⟨i, rest, hd, hz, _⟩ | ⟨_, he⟩
    · simp at ht
    · simp at ht
    · exact ⟨i, rest, hd, hz⟩
    · simp [he, herr] at ht

/-! ### What every error leaves -/

/-- A failing step has only fetched and raised: one byte where the opcode is illegal, the whole instruction where there is
one (60_exceptions.md R148). -/
theorem eq_raise_afterFetch_of_step_haltedError {s t : State} (h : step s = .next t) (ht : t.runState = .haltedError) :
    ∃ n e, t = (s.afterFetch n).raise e ∧ (∀ b0, s.decoded = .illegalOpcode b0 → n = 1) ∧
      ∀ i rest, s.decoded = .instr i rest → n = i.length := by
  rcases step_error_cases h with ⟨b0, hd, ht⟩ | ⟨i, rest, hd, _, ht⟩ | ⟨i, rest, hd, _, ht⟩ | ⟨hsafe, _⟩
  · exact ⟨1, _, ht, by simp, by simp [hd]⟩
  · exact ⟨i.length, _, ht, by simp [hd], by simp +contextual [hd]⟩
  · exact ⟨i.length, _, ht, by simp [hd], by simp +contextual [hd]⟩
  · exact absurd ht hsafe

/-- Settles O17: fetching moves `pc` and the trace, raising writes `run_state` and `error`, and nothing else happens. -/
theorem errorsArePrecise : Obligations.ErrorsArePrecise := by
  intro s t _ h ht
  obtain ⟨n, e, rfl, hillegal, hinstr⟩ := eq_raise_afterFetch_of_step_haltedError h ht
  refine ⟨rfl, fun _ => rfl, rfl, rfl, rfl, rfl, ?kind, fun b0 hd => ?onePast, fun i rest hd => ?wholePast⟩
  case kind => cases e <;> simp
  case onePast => rw [hillegal b0 hd]; rfl
  case wholePast => rw [hinstr i rest hd]; rfl

/-- Settles O16: raising writes the two fields, and the step is defined only while Running. -/
theorem raiseWritesRunStateAndErrorOnly : Obligations.RaiseWritesRunStateAndErrorOnly := by
  refine fun e s => ⟨rfl, fun t h => ?noStep, ?failure⟩
  case noStep => cases running_of_step _ t h
  case failure =>
    obtain ⟨_, herror, hsuccess⟩ := raise_outcome s e
    exact ⟨hsuccess, herror⟩

end Sys2Proof.Machine
end

section
/-! SUPPORT. Which effects change a piece of the state, piece by piece: the statements on frames and on whole steps are
read off from these. -/

namespace Sys2Proof.Machine

/-- No effect touches the trace: the step's entry is appended before the fetch (60_exceptions.md R152). -/
theorem effect_trace {i : Instr} {s t : State} (h : Effect i s t) : t.trace = s.trace := by
  cases h <;> simp

/-- An effect that changes a register is one register write, by an instruction with a destination (10_state.md R11). -/
theorem effect_regs {i : Instr} {s t : State} (h : Effect i s t) :
    t.regs = s.regs ∨ ∃ (dest v : Byte) (hd : dest.toNat < 8), i.dest = some dest ∧
      t = s.writeReg ⟨dest.toNat, hd⟩ v := by
  cases h with
  | writes dest v hd hi _ _ => exact .inr ⟨dest, v, hd, hi, rfl⟩
  | _ => simp

/-- An effect that changes memory is the one write of a STORE_MEM (20_memory.md section 1). -/
theorem effect_mem {i : Instr} {s t : State} (h : Effect i s t) :
    t.mem = s.mem ∨ ∃ (addr reg : Byte) (hr : reg.toNat < 8), i = .storeMem addr reg ∧
      t = s.writeMem addr s.regs[reg.toNat] := by
  cases h with
  | stores addr reg hr hi => exact .inr ⟨addr, reg, hr, hi, rfl⟩
  | _ => simp

/-- An effect that changes the output is that of a PRINT, which appends one numeral (10_state.md section 6). -/
theorem effect_out {i : Instr} {s t : State} (h : Effect i s t) :
    t.out = s.out ∨ ∃ (reg : Byte) (hr : reg.toNat < 8), i = .print reg ∧
      t.out = s.out ++ dec s.regs[reg.toNat] := by
  cases h with
  | prints reg hr hi => exact .inr ⟨reg, hr, hi, rfl⟩
  | _ => simp

/-- CALL pushes one value, RETURN on a non-empty stack takes the last one into `pc`, and every other effect leaves the
stack as it was (10_state.md section 4). -/
theorem effect_cs {i : Instr} {s t : State} (h : Effect i s t) :
    ((∀ addr, i ≠ .call addr) ∧ (i = .ret → s.cs = []) ∧ t.cs = s.cs) ∨
      (∃ addr, i = .call addr ∧ t.cs = s.cs ++ [s.pc]) ∨ (i = .ret ∧ s.cs = t.cs ++ [t.pc]) := by
  cases h with
  | calls addr hi => exact .inr (.inl ⟨addr, hi, rfl⟩)
  | returns hi =>
    rcases List.eq_nil_or_concat s.cs with hcs | ⟨l, v, hcs⟩
    · exact .inl ⟨by simp [hi], fun _ => hcs, by rw [popToPc_nil s hcs]⟩
    · rw [List.concat_eq_append] at hcs
      exact .inr (.inr ⟨hi, by rw [popToPc_concat s l v hcs, hcs]⟩)
  | indexFault hwf =>
    refine .inl ⟨?_, ?_, rfl⟩
    · rintro addr rfl; exact absurd (by simp [Instr.WellFormed, Instr.regOperands]) hwf
    · rintro rfl; exact absurd (by simp [Instr.WellFormed, Instr.regOperands]) hwf
  | divisionByZero hz => obtain ⟨_, _, _, _, rfl, _⟩ := hz; simp
  | writes dest v hd hi _ _ =>
    refine .inl ⟨?_, ?_, rfl⟩
    · rintro addr rfl; cases hi
    · rintro rfl; cases hi
  | fallsThrough reg addr hr hi => rcases hi with rfl | rfl <;> simp
  | stores addr reg hr hi => simp [hi]
  | jumps addr hi => simp [hi]
  | jumpsOnZero reg addr hr hi _ => simp [hi]
  | jumpsOnNeg reg addr hr hi _ => simp [hi]
  | halts hi => simp [hi]
  | prints reg hr hi => simp [hi]

/-- `pc` is moved by the effects of the control instructions only, each to its own target (10_state.md section 3). -/
theorem effect_pc {i : Instr} {s t : State} (h : Effect i s t) :
    t.pc = s.pc ∨ i = .jump t.pc ∨ i = .call t.pc ∨
      (∃ (reg : Byte) (_ : reg.toNat < 8), i = .jumpIfZero reg t.pc ∧ s.regs[reg.toNat] = 0) ∨
      (∃ (reg : Byte) (_ : reg.toNat < 8), i = .jumpIfNeg reg t.pc ∧ 128 ≤ s.regs[reg.toNat].toNat) ∨
      (i = .ret ∧ s.cs.getLast? = some t.pc) := by
  cases h with
  | jumps addr hi => exact .inr (.inl hi)
  | calls addr hi => exact .inr (.inr (.inl hi))
  | jumpsOnZero reg addr hr hi hz => exact .inr (.inr (.inr (.inl ⟨reg, hr, hi, hz⟩)))
  | jumpsOnNeg reg addr hr hi hn => exact .inr (.inr (.inr (.inr (.inl ⟨reg, hr, hi, hn⟩))))
  | returns hi =>
    rcases List.eq_nil_or_concat s.cs with hcs | ⟨l, v, hcs⟩
    · rw [popToPc_nil s hcs]; exact .inl rfl
    · rw [List.concat_eq_append] at hcs
      rw [popToPc_concat s l v hcs]
      exact .inr (.inr (.inr (.inr (.inr ⟨hi, by simp [hcs]⟩))))
  | _ => exact .inl rfl

/-- `run_state` and `error` are changed by HALT, by the index check and by a zero divisor only, and these change nothing
else (40_sequencer.md R75, 60_exceptions.md R147). -/
theorem effect_runState_error {i : Instr} {s t : State} (h : Effect i s t) :
    (t.runState = s.runState ∧ t.error = s.error) ∨ (i = .halt ∧ t = s.haltOk) ∨
      (¬ i.WellFormed ∧ t = s.raise .indexFault) ∨ (s.DividesByZero i ∧ t = s.raise .divisionByZero) := by
  cases h with
  | halts hi => exact .inr (.inl ⟨hi, rfl⟩)
  | indexFault hwf => exact .inr (.inr (.inl ⟨hwf, rfl⟩))
  | divisionByZero hz => exact .inr (.inr (.inr ⟨hz, rfl⟩))
  | _ => simp

end Sys2Proof.Machine
end

section
/-! SUPPORT. The invariant of 10_state.md section 11: reset has it, every step and every `load` keeps it. -/

namespace Sys2Proof.Machine

/-- A step writes memory at most once, and a write keeps the canonical form. -/
theorem step_keeps_wf {s t : State} (h : step s = .next t) (hwf : s.mem.wf) : t.mem.wf := by
  rcases step_cases s t h with ⟨_, _, rfl⟩ | ⟨i, _, _, _, he⟩
  · exact hwf
  · rcases effect_mem he with hmem | ⟨addr, reg, hr, _, rfl⟩
    · rw [hmem]; exact hwf
    · exact wf_write _ _ _ hwf

/-- A step appends to the output nothing or one numeral (10_state.md R15). -/
theorem step_out {s t : State} (h : step s = .next t) : ∃ vs : List Byte, t.out = s.out ++ vs.flatMap dec := by
  rcases step_cases s t h with ⟨_, _, rfl⟩ | ⟨i, _, _, _, he⟩
  · exact ⟨[], by simp⟩
  · rcases effect_out he with hout | ⟨reg, hr, _, hout⟩
    · exact ⟨[], by simp [hout]⟩
    · exact ⟨[s.regs[reg.toNat]], by simp [hout]⟩

/-- A step that raises nothing leaves `error` at none, and one that raises an error ends in HaltedError with it. -/
theorem step_error_eq_none_iff {s t : State} (h : step s = .next t) (herr : s.error = none) :
    t.error = none ↔ t.runState ≠ .haltedError := by
  rcases step_error_cases h with ⟨_, _, rfl⟩ | ⟨_, _, _, _, rfl⟩ | ⟨_, _, _, _, rfl⟩ | ⟨hsafe, he⟩
  · simp
  · simp
  · simp
  · exact iff_of_true (he.trans herr) hsafe

/-- Settles O48, clause by clause; the first entry of the trace is that of the step's own state exactly when the trace was
empty, and then the core is still at the entry point with zero registers. -/
theorem everyStepKeepsTheInvariant : Obligations.EveryStepKeepsTheInvariant := by
  intro s t hinv h
  have htrace := step_trace s t h
  have herr : s.error = none := hinv.errorKind.mpr (by simp [running_of_step s t h])
  refine ⟨step_keeps_wf h hinv.memory, step_error_eq_none_iff h herr, ?output, ?origin, ?firstEntry⟩
  case output =>
    obtain ⟨vs, hvs⟩ := hinv.output
    obtain ⟨ws, hws⟩ := step_out h
    exact ⟨vs ++ ws, by rw [hws, hvs, List.flatMap_append]⟩
  case origin => simp [htrace]
  case firstEntry =>
    intro e he
    cases hs : s.trace with
    | nil =>
      obtain ⟨hpc, hregs⟩ := hinv.origin hs
      simpa [htrace, hs, hpc, hregs, eq_comm] using he
    | cons e' es => exact hinv.firstEntry e (by simpa [htrace, hs] using he)

/-- Any number of steps keeps the invariant. -/
theorem runSteps_keeps_inv {n : Nat} {s t : State} (hinv : s.Inv) (h : runSteps n s = .next t) : t.Inv := by
  induction n generalizing s with
  | zero => cases h; exact hinv
  | succ n ih =>
    obtain ⟨u, hstep, hrest⟩ := exists_of_runSteps_succ n s t h
    exact ih (everyStepKeepsTheInvariant s u hinv hstep) hrest

/-- Settles O47: at reset nothing is listed in memory, printed or traced. -/
theorem resetSatisfiesTheInvariant : Obligations.ResetSatisfiesTheInvariant where
  memory := wf_nil
  errorKind := by simp [State.reset]
  output := ⟨[], rfl⟩
  origin := fun _ => ⟨rfl, rfl⟩
  firstEntry := by simp [State.reset]

/-- Settles O49: `load` writes bytes in a row, which keeps the canonical form, and sets `pc` to the entry point. -/
theorem loadKeepsTheInvariant : Obligations.LoadKeepsTheInvariant := by
  intro image s t hinv h
  cases eq_of_load h
  exact {
    memory := wf_writeBytes image s.mem 0 hinv.memory
    errorKind := hinv.errorKind
    output := hinv.output
    origin := fun htrace => ⟨rfl, (hinv.origin htrace).2⟩
    firstEntry := hinv.firstEntry }

end Sys2Proof.Machine
end

section
/-! SUPPORT. The statement on the call stack of 10_state.md section 11: each step accounts for the stack's length. -/

namespace Sys2Proof.Machine

theorem callsNow_of_call {s : State} {addr : Byte} {rest : List Byte} (h : s.decoded = .instr (.call addr) rest) :
    s.callsNow = true := by
  simp [State.callsNow, h]

theorem callsNow_of_ne_call {s : State} {i : Instr} {rest : List Byte} (h : s.decoded = .instr i rest)
    (hi : ∀ addr, i ≠ .call addr) : s.callsNow = false := by
  cases i <;> simp_all [State.callsNow]

theorem returnsNow_of_ret {s : State} {rest : List Byte} (h : s.decoded = .instr .ret rest) :
    s.returnsNow = !s.cs.isEmpty := by
  simp [State.returnsNow, h]

theorem returnsNow_of_ne_ret {s : State} {i : Instr} {rest : List Byte} (h : s.decoded = .instr i rest)
    (hi : i ≠ .ret) : s.returnsNow = false := by
  cases i <;> simp_all [State.returnsNow]

/-- One step: a CALL makes the stack one longer, a RETURN on a non-empty stack one shorter (90_conflicts.md C8). -/
theorem step_cs_length {s t : State} (h : step s = .next t) :
    t.cs.length + s.returnsNow.toNat = s.cs.length + s.callsNow.toNat := by
  rcases step_cases s t h with ⟨b0, hd, rfl⟩ | ⟨i, rest, hd, _, he⟩
  · simp [State.returnsNow, State.callsNow, hd]
  · rcases effect_cs he with ⟨hcall, hret, hcs⟩ | ⟨addr, rfl, hcs⟩ | ⟨rfl, hcs⟩
    · have hreturns : s.returnsNow = false := by
        by_cases hi : i = .ret
        · subst hi
          have hnil : s.cs = [] := hret rfl
          simp [returnsNow_of_ret hd, hnil]
        · exact returnsNow_of_ne_ret hd hi
      simp [hreturns, callsNow_of_ne_call hd hcall, hcs]
    · simp [returnsNow_of_ne_ret hd, callsNow_of_call hd, hcs]
    · rw [afterFetch_cs] at hcs
      simp [returnsNow_of_ret hd, callsNow_of_ne_call hd, hcs]

/-- Settles O50, by induction on the number of steps. -/
theorem callStackCountsTheUnmatchedCalls : Obligations.CallStackCountsTheUnmatchedCalls := by
  intro n
  induction n with
  | zero => rintro s _ ⟨⟩; rfl
  | succ n ih =>
    intro s t h
    obtain ⟨u, hstep, hrest⟩ := exists_of_runSteps_succ n s t h
    have hone := step_cs_length hstep
    have hmore := ih u t hrest
    rw [countSteps_succ _ n s u hstep, countSteps_succ _ n s u hstep]
    omega

end Sys2Proof.Machine
end

section
/-! SUPPORT. The statement on noninterference of 10_state.md sections 6 and 8. A state with older entries and characters
put before its own runs as the state without them does, and the older ones stay in front. -/

namespace Sys2Proof.Machine

/-- The state with older trace entries and older output put before its own. -/
def State.withPast (trace : List TraceEntry) (out : List Char) (s : State) : State :=
  { s with trace := trace ++ s.trace, out := out ++ s.out }

/-- An answer with its next state changed. -/
def mapNext (f : State → State) : Answer → Answer
  | .next t => .next (f t)
  | .fault r => .fault r
  | .refused r => .refused r

/-- Every state is one of no past with its own trace and output as the past. -/
theorem withPast_erased (s : State) (trace : List TraceEntry) (out : List Char) :
    ({ s with trace := [], out := [] } : State).withPast trace out = { s with trace := trace, out := out } := by
  simp [State.withPast]

theorem exists_of_mapNext_eq_next {f : State → State} {a : Answer} {t : State} (h : mapNext f a = .next t) :
    ∃ u, a = .next u ∧ t = f u := by
  cases a <;> cases h
  exact ⟨_, rfl, rfl⟩

theorem withReg_withPast {trace : List TraceEntry} {out : List Char} (b : Byte) (s : State)
    {k k' : RegIndex → Answer} (h : ∀ r, k' r = mapNext (State.withPast trace out) (k r)) :
    withReg b (s.withPast trace out) k' = mapNext (State.withPast trace out) (withReg b s k) := by
  unfold withReg
  cases regIndex b with
  | none => rfl
  | some r => exact h r

theorem popToPc_withPast (trace : List TraceEntry) (out : List Char) (s : State) :
    (s.withPast trace out).popToPc = s.popToPc.withPast trace out := by
  unfold State.popToPc
  cases hcs : s.cs.getLast? <;> simp [State.withPast, hcs]

theorem outAppend_withPast (trace : List TraceEntry) (out chars : List Char) (s : State) :
    (s.withPast trace out).outAppend chars = (s.outAppend chars).withPast trace out := by
  simp [State.withPast, State.outAppend]

theorem execJumpIf_withPast (trace : List TraceEntry) (out : List Char) (test : Byte → Bool) (reg addr : Byte)
    (s : State) : execJumpIf test reg addr (s.withPast trace out) =
      mapNext (State.withPast trace out) (execJumpIf test reg addr s) :=
  withReg_withPast reg s fun r => congrArg Host.Outcome.next
    (apply_ite (State.withPast trace out) (test (s.readReg r)) (s.setPc addr) s).symm

/-- No meaning reads the trace or the output. -/
theorem exec_withPast (trace : List TraceEntry) (out : List Char) (i : Instr) (s : State) :
    exec i (s.withPast trace out) = mapNext (State.withPast trace out) (exec i s) := by
  cases i with
  | loadConst reg value => exact withReg_withPast _ _ fun _ => rfl
  | move dest src => exact withReg_withPast _ _ fun _ => withReg_withPast _ _ fun _ => rfl
  | add dest src1 src2 =>
    exact withReg_withPast _ _ fun _ => withReg_withPast _ _ fun _ => withReg_withPast _ _ fun _ => rfl
  | sub dest src1 src2 =>
    exact withReg_withPast _ _ fun _ => withReg_withPast _ _ fun _ => withReg_withPast _ _ fun _ => rfl
  | mul dest src1 src2 =>
    exact withReg_withPast _ _ fun _ => withReg_withPast _ _ fun _ => withReg_withPast _ _ fun _ => rfl
  | div dest src1 src2 =>
    refine withReg_withPast _ _ fun d => withReg_withPast _ _ fun r1 => withReg_withPast _ _ fun r2 => ?_
    exact (apply_ite (mapNext (State.withPast trace out)) (s.readReg r2 = 0) (.next (s.raise .divisionByZero))
      (.next (s.writeReg d (divByte (s.readReg r1) (s.readReg r2))))).symm
  | loadMem reg addr => exact withReg_withPast _ _ fun _ => rfl
  | storeMem addr reg => exact withReg_withPast _ _ fun _ => rfl
  | jump addr => rfl
  | jumpIfZero reg addr => exact execJumpIf_withPast trace out isZero reg addr s
  | jumpIfNeg reg addr => exact execJumpIf_withPast trace out isNeg reg addr s
  | call addr => rfl
  | ret => exact congrArg _ (popToPc_withPast trace out s)
  | halt => rfl
  | print reg => exact withReg_withPast _ _ fun r => congrArg _ (outAppend_withPast trace out _ s)

theorem afterFetch_withPast (trace : List TraceEntry) (out : List Char) (s : State) (n : Nat) :
    (s.withPast trace out).afterFetch n = (s.afterFetch n).withPast trace out := by
  simp [State.withPast, State.afterFetch]

/-- A step of a state with a past is the step of the state without it. -/
theorem step_withPast (trace : List TraceEntry) (out : List Char) (s : State) :
    step (s.withPast trace out) = mapNext (State.withPast trace out) (step s) := by
  by_cases hrun : s.runState = .running
  · have hrun' : (s.withPast trace out).runState = .running := hrun
    rcases decoded_cases s with ⟨b0, hd⟩ | ⟨i, rest, hd⟩
    · rw [step_of_illegal hrun hd, step_of_illegal hrun' hd, afterFetch_withPast]; rfl
    · rw [step_of_instr hrun hd, step_of_instr hrun' hd, afterFetch_withPast, exec_withPast]
  · unfold step stepState
    cases hr : s.runState <;> simp [State.withPast, mapNext, hr] at hrun ⊢

/-- Any number of steps of a state with a past are the steps of the state without it. -/
theorem runSteps_withPast (trace : List TraceEntry) (out : List Char) (n : Nat) (s : State) :
    runSteps n (s.withPast trace out) = mapNext (State.withPast trace out) (runSteps n s) := by
  induction n generalizing s with
  | zero => rfl
  | succ n ih =>
    unfold runSteps
    rw [step_withPast]
    cases step s with
    | next u => exact ih u
    | fault r => rfl
    | refused r => rfl

/-- Settles O52: both states are one state of no past with different pasts, so both run as that state does. -/
theorem traceAndOutputDoNotInfluenceExecution : Obligations.TraceAndOutputDoNotInfluenceExecution := by
  intro n s t trace out h
  have hs : s = ({ s with trace := [], out := [] } : State).withPast s.trace s.out := by rw [withPast_erased]
  rw [hs, runSteps_withPast] at h
  obtain ⟨u, hu, rfl⟩ := exists_of_mapNext_eq_next h
  refine ⟨u.trace, u.out, rfl, rfl, ?_⟩
  rw [← withPast_erased s trace out, runSteps_withPast, hu]
  rfl

end Sys2Proof.Machine
end

section
/-! SUPPORT. The statements on decoding of 30_encoding.md, and on the word the host places (20_memory.md section 5). -/

namespace Sys2Proof.Machine

/-- Settles O3: an instruction is read back from its own bytes, and only where these stand. -/
theorem decodeInvertsEncode : Obligations.DecodeInvertsEncode :=
  fun _ i rest => ⟨eq_encode_append_of_decode, fun h => h ▸ decode_encode_append i rest⟩

/-- Settles O1: the strings are encoded instructions, in two cases a byte that matches no row, and last the bytes of an
ADD put together to a number. -/
theorem wordsDecodeAsTheTableSays : Obligations.WordsDecodeAsTheTableSays :=
  ⟨decode_encode_append (.loadConst 3 200) [],
    decode_encode_append (.move 5 1) [],
    decode_encode_append (.sub 2 0 1) [0x0E],
    decode_encode_append (.loadMem 1 0x80) [],
    decode_encode_append (.storeMem 0x80 0) [],
    decode_encode_append (.jumpIfZero 0 0x0F) [],
    decode_encode_append (.call 8) [],
    decode_encode_append .ret [],
    decode_encode_append (.print 7) [],
    decode_cons_of_opcodeRow_eq_none 0x00 [] rfl,
    decode_cons_of_opcodeRow_eq_none 0x10 [0x08, 0x08, 0x08] rfl,
    rfl⟩

/-- The byte at `pc` matches a row or none; four bytes are enough for every row, so where one matches an instruction is
decoded, and its encoding stands there (30_encoding.md section 5). -/
theorem decoded_total (s : State) :
    (((s.mem.read s.pc).toNat = 0 ∨ 16 ≤ (s.mem.read s.pc).toNat) ∧ s.decoded = .illegalOpcode (s.mem.read s.pc)) ∨
      ((1 ≤ (s.mem.read s.pc).toNat ∧ (s.mem.read s.pc).toNat ≤ 15) ∧
        ∃ i rest, s.decoded = .instr i rest ∧ s.mem.readBytes s.pc i.length = encode i) := by
  by_cases hbyte : (s.mem.read s.pc).toNat = 0 ∨ 16 ≤ (s.mem.read s.pc).toNat
  · exact .inl ⟨hbyte, decode_cons_of_opcodeRow_eq_none _ _ ((opcodeRow_eq_none _).mpr hbyte)⟩
  · rcases decoded_cases s with hillegal | ⟨i, rest, hd⟩
    · exact absurd ((decoded_illegalOpcode_iff s).mp hillegal) hbyte
    · exact .inr ⟨by omega, i, rest, hd, readBytes_eq_encode_of_decoded hd⟩

/-- Settles O4: any memory and address are those of some state. -/
theorem decodingMemoryIsTotal : Obligations.DecodingMemoryIsTotal :=
  fun m a => decoded_total { State.reset with mem := m, pc := a }

/-- Bytes written in a row, wrapping past 255 or not, leave every cell outside the row alone. -/
theorem read_writeBytes_of_ne (bytes : List Byte) (m : Memory) (a b : Byte)
    (hb : ∀ k < bytes.length, b ≠ a + BitVec.ofNat 8 k) : (m.writeBytes a bytes).read b = m.read b := by
  induction bytes generalizing m a with
  | nil => rfl
  | cons v vs ih =>
    have hrest : ∀ k < vs.length, b ≠ a + 1 + BitVec.ofNat 8 k := by
      intro k hk
      have hne := hb (k + 1) (Nat.succ_lt_succ hk)
      rwa [Nat.add_comm, BitVec.ofNat_add, ← BitVec.add_assoc] at hne
    have hfirst : b ≠ a := by simpa using hb 0 (Nat.succ_pos _)
    rw [Memory.writeBytes, ih _ _ hrest, read_write, if_neg hfirst]

/-- Up to 256 bytes written in a row, wrapping past 255 or not, are read back. -/
theorem readBytes_writeBytes (bytes : List Byte) (m : Memory) (a : Byte) (hlen : bytes.length ≤ 256) :
    (m.writeBytes a bytes).readBytes a bytes.length = bytes := by
  induction bytes generalizing m a with
  | nil => rfl
  | cons v vs ih =>
    rw [List.length_cons] at hlen
    have houtside : ∀ k < vs.length, a ≠ a + 1 + BitVec.ofNat 8 k := by
      intro k hk heq
      bv_omega
    rw [List.length_cons, readBytes_succ, Memory.writeBytes, ih _ _ (by omega),
      read_writeBytes_of_ne vs _ _ _ houtside, read_write, if_pos rfl]

/-- What stands at `pc` once a word is placed there is what the decoder reads from the word's bytes. -/
theorem withFetchWord_decoded (s : State) (nbits w : Nat) :
    (s.withFetchWord nbits w).decoded = decode (tableWordBytes nbits w) :=
  congrArg decode (readBytes_writeBytes (tableWordBytes nbits w) s.mem s.pc (by simp [tableWordBytes]))

theorem decode_of_decodeTableWord {nbits w : Nat} {i : Instr} (h : decodeTableWord nbits w = some i) :
    ∃ rest, decode (tableWordBytes nbits w) = .instr i rest := by
  unfold decodeTableWord at h
  cases hd : decode (tableWordBytes nbits w) <;> simp [hd] at h
  exact ⟨_, by rw [h]⟩

/-- Settles O5: the four bytes placed at `pc` are those the decoder reads there. -/
theorem placedWordIsRunNext : Obligations.PlacedWordIsRunNext := by
  intro s nbits w i hrun hw
  obtain ⟨rest, hd⟩ := decode_of_decodeTableWord hw
  exact step_of_instr hrun ((withFetchWord_decoded s nbits w).trans hd)

end Sys2Proof.Machine
end

section
/-! SUPPORT. The statements on registers, on the canonical form of memory and on reset (10_state.md, 20_memory.md). -/

namespace Sys2Proof.Machine

theorem regIndex_eq_some_iff (b : Byte) (r : RegIndex) : regIndex b = some r ↔ b.toNat = r.val := by
  by_cases hb : b.toNat < 8
  · rw [regIndex_of_lt b hb, Option.some_inj, Fin.ext_iff]
  · rw [regIndex_of_ge b (by omega)]
    exact iff_of_false (by simp) (by omega)

theorem regIndex_eq_none_iff (b : Byte) : regIndex b = none ↔ 8 ≤ b.toNat := by
  by_cases hb : b.toNat < 8
  · rw [regIndex_of_lt b hb]
    exact iff_of_false (by simp) (by omega)
  · exact iff_of_true (regIndex_of_ge b (by omega)) (by omega)

/-- Settles O7: read-over-write on registers, and the index check as a comparison of numbers. -/
theorem registerWriteReplacesOneRegister : Obligations.RegisterWriteReplacesOneRegister :=
  fun s r q v b => ⟨readReg_writeReg s r q v, rfl, regIndex_eq_some_iff b r, regIndex_eq_none_iff b⟩

/-- A canonical memory lists a value other than that of an unlisted cell exactly at the address that reads as it. -/
theorem mem_iff_read_eq {m : Memory} (hwf : m.wf) {a v : Byte} (hv : v ≠ Memory.unlisted) :
    (a.toNat, v) ∈ m ↔ m.read a = v := by
  induction m with
  | nil => exact iff_of_false (by simp) fun h => hv h.symm
  | cons c m ih =>
    obtain ⟨hsorted, hcells⟩ := hwf
    obtain ⟨hhead, htail⟩ := List.pairwise_cons.mp hsorted
    have ih := ih ⟨htail, fun d hd => hcells d (List.mem_cons_of_mem c hd)⟩
    rw [List.mem_cons, read_cons]
    by_cases hc : c.1 = a.toNat
    · have hnot : (a.toNat, v) ∉ m := fun hd => absurd (hhead _ hd) (by simp [hc])
      simp [hnot, hc, Prod.ext_iff, eq_comm]
    · have hne : (a.toNat, v) ≠ c := fun h => hc (by rw [← h])
      simp [hne, hc, ih]

/-- Every entry of a canonical memory stands in any other that reads alike. -/
theorem mem_of_read_eq {m m' : Memory} (hwf : m.wf) (hwf' : m'.wf) (hread : ∀ a : Byte, m.read a = m'.read a)
    {c : Host.Cell} (hc : c ∈ m) : c ∈ m' := by
  obtain ⟨haddr, hv⟩ := hwf.2 c hc
  have hcell : c = ((BitVec.ofNat 8 c.1).toNat, c.2) := by simp [Nat.mod_eq_of_lt haddr]
  rw [hcell] at hc ⊢
  rw [mem_iff_read_eq hwf' hv, ← hread, ← mem_iff_read_eq hwf hv]
  exact hc

/-- Settles O9: the two lists have the same entries, and entries in strictly rising order of address are in one order. -/
theorem canonicalMemoriesThatReadAlikeAreEqual : Obligations.CanonicalMemoriesThatReadAlikeAreEqual := by
  intro m m' hwf hwf' hread
  have : Std.Irrefl fun c d : Host.Cell => c.1 < d.1 := ⟨fun _ => Nat.lt_irrefl _⟩
  have : Std.Antisymm fun c d : Host.Cell => c.1 < d.1 := ⟨fun _ _ h h' => absurd h (Nat.lt_asymm h')⟩
  exact hwf.1.eq_of_mem_iff hwf'.1 fun c =>
    ⟨mem_of_read_eq hwf hwf' hread, mem_of_read_eq hwf' hwf fun a => (hread a).symm⟩

/-- Settles O6: the registers are eight copies of 0 and memory lists nothing; the other fields are written out. -/
theorem resetLeavesEveryPieceOfStateAtItsValue : Obligations.ResetLeavesEveryPieceOfStateAtItsValue :=
  ⟨fun r => Vector.getElem_replicate r.isLt, read_nil, rfl, rfl, rfl, rfl, rfl, rfl⟩

end Sys2Proof.Machine
end

section
/-! SUPPORT. The statements on the errors of one step (60_exceptions.md sections 1 and 3) and on its progress. -/

namespace Sys2Proof.Machine

/-- Settles O21: an illegal opcode raises an error, which is a next state, and every meaning answers one. -/
theorem aRunningCoreAlwaysSteps : Obligations.ARunningCoreAlwaysSteps := by
  intro s hrun
  rcases decoded_cases s with ⟨b0, hd⟩ | ⟨i, rest, hd⟩
  · exact ⟨_, step_of_illegal hrun hd⟩
  · rw [step_of_instr hrun hd]
    exact exec_next i _

/-- Settles O13: the index check of the instruction decoded fails in the state after the fetch. -/
theorem outOfRangeRegisterRaisesIndexFault : Obligations.OutOfRangeRegisterRaisesIndexFault := by
  intro s i rest hrun hd hwf
  obtain ⟨t, h⟩ := aRunningCoreAlwaysSteps s hrun
  rw [h, effect_of_not_wellFormed (effect_of_step h hd) hwf]
  rfl

/-- What has to stand at `pc` for a step to end in each kind of error (60_exceptions.md section 1). -/
def State.CauseOf (s : State) : ErrorKind → Prop
  | .invalidOpcode => ∃ b0, s.decoded = .illegalOpcode b0
  | .indexFault => ∃ i rest, s.decoded = .instr i rest ∧ ¬ i.WellFormed
  | .divisionByZero => ∃ i rest, s.decoded = .instr i rest ∧ s.DividesByZero i

/-- A step that ends in an error has its cause. -/
theorem causeOf_of_step_error {s t : State} {e : ErrorKind} (h : step s = .next t) (herr : s.error = none)
    (ht : t.error = some e) : s.CauseOf e := by
  rcases step_error_cases h with ⟨b0, hd, rfl⟩ | ⟨i, rest, hd, hwf, rfl⟩ | ⟨i, rest, hd, hz, rfl⟩ | ⟨_, he⟩
  · cases ht; exact ⟨b0, hd⟩
  · cases ht; exact ⟨i, rest, hd, hwf⟩
  · cases ht; exact ⟨i, rest, hd, hz⟩
  · simp [he, herr] at ht

/-- A cause of an error makes the step end in it. -/
theorem step_error_of_causeOf {s t : State} {e : ErrorKind} (h : step s = .next t) (hcause : s.CauseOf e) :
    t.error = some e := by
  cases e with
  | invalidOpcode =>
    obtain ⟨b0, hd⟩ := hcause
    rw [eq_raise_of_step_illegal h hd, raise_error]
  | indexFault =>
    obtain ⟨i, rest, hd, hwf⟩ := hcause
    rw [effect_of_not_wellFormed (effect_of_step h hd) hwf, raise_error]
  | divisionByZero =>
    obtain ⟨i, rest, hd, hz⟩ := hcause
    rw [effect_of_dividesByZero (effect_of_step h hd) hz, raise_error]

/-- Settles O15: a step ends in an error exactly when the cause of that error stands at `pc`. -/
theorem errorOfAStepFollowsTheOrderOfChecks : Obligations.ErrorOfAStepFollowsTheOrderOfChecks := by
  intro s t _ herr h
  have hiff (e : ErrorKind) : t.error = some e ↔ s.CauseOf e :=
    ⟨causeOf_of_step_error h herr, step_error_of_causeOf h⟩
  exact ⟨hiff .invalidOpcode, hiff .indexFault, hiff .divisionByZero⟩

/-- Settles O22: the step completes, and of the ways an effect can end only the one without an error is left. -/
theorem aStepWithNoCauseOfErrorStaysSafe : Obligations.AStepWithNoCauseOfErrorStaysSafe := by
  intro s i rest hrun hd hwf hz
  obtain ⟨t, h⟩ := aRunningCoreAlwaysSteps s hrun
  have hsafe : (s.afterFetch i.length).Safe := by simp [State.Safe, hrun]
  rcases effect_error_cases (effect_of_step h hd) hsafe with ⟨hnwf, _⟩ | ⟨hz', _⟩ | ⟨ht, _⟩
  · exact absurd hwf hnwf
  · exact absurd hz' hz
  · exact ⟨t, h, ht⟩

/-- Settles O19: `step` and `load` answer a next state of a Running core only. -/
theorem haltedStatesAreTerminal : Obligations.HaltedStatesAreTerminal := by
  intro s hhalted
  have hrun : s.runState ≠ .running := by rcases hhalted with h | h <;> simp [h]
  exact ⟨fun t h => hrun (running_of_step s t h), fun image t h => hrun (running_of_load h)⟩

/-- Settles O20: the three operations look at `run_state` first. -/
theorem operationsRefuseACoreThatIsNotRunning : Obligations.OperationsRefuseACoreThatIsNotRunning := by
  intro s hrun
  cases hr : s.runState with
  | running => exact absurd hr hrun
  | haltedOk => simp [step, stepState, run, load, hr]
  | haltedError => simp [step, stepState, run, load, hr]

/-- Settles O55: a Running core compares the length of the image with the size of memory. -/
theorem loadOfTooLongAnImageFails : Obligations.LoadOfTooLongAnImageFails := by
  intro image s hrun hlen
  simp [load, hrun, hlen]

end Sys2Proof.Machine
end

section
/-! SUPPORT. The frame statements, and those on which step changes which piece of state and where `pc` moves. -/

namespace Sys2Proof.Machine

/-! ### Frames of the effects -/

/-- The effect of an instruction with a destination register is one register write or one error raised. -/
theorem effect_of_dest {i : Instr} {dest : Byte} {s t : State} (h : Effect i s t) (hi : i.dest = some dest) :
    (∃ (v : Byte) (hd : dest.toNat < 8), t = s.writeReg ⟨dest.toNat, hd⟩ v) ∨
      (¬ i.WellFormed ∧ t = s.raise .indexFault) ∨ (s.DividesByZero i ∧ t = s.raise .divisionByZero) := by
  cases h with
  | writes dest' v hd hi' _ _ =>
    cases hi.symm.trans hi'
    exact .inl ⟨v, hd, rfl⟩
  | indexFault hwf => exact .inr (.inl ⟨hwf, rfl⟩)
  | divisionByZero hz => exact .inr (.inr ⟨hz, rfl⟩)
  | fallsThrough reg addr hr hi' => rcases hi' with rfl | rfl <;> cases hi
  | _ => simp_all [Instr.dest]

/-- Settles O41: a register write touches one register, and raising an error none. -/
theorem frameOfRegisterWritingInstructions : Obligations.FrameOfRegisterWritingInstructions := by
  intro i dest s t hi h
  rcases effect_of_dest (exec_effect i s t h) hi with ⟨v, hd, rfl⟩ | ⟨hwf, rfl⟩ | ⟨hz, rfl⟩
  · refine ⟨fun r hr => ?_, fun _ => rfl, rfl, rfl, rfl, rfl, .inl ⟨rfl, rfl⟩⟩
    rw [readReg_writeReg, if_neg (fun heq => hr (congrArg Fin.val heq))]
  · exact ⟨fun _ _ => rfl, fun _ => rfl, rfl, rfl, rfl, rfl, .inr ⟨rfl, rfl, .inl ⟨rfl, hwf⟩⟩⟩
  · exact ⟨fun _ _ => rfl, fun _ => rfl, rfl, rfl, rfl, rfl, .inr ⟨rfl, rfl, .inr ⟨rfl, hz⟩⟩⟩

/-- Settles O42: in range the effect is one memory write, out of range IndexFault. -/
theorem frameOfStoreMem : Obligations.FrameOfStoreMem := by
  intro addr reg s t h
  by_cases hr : reg.toNat < 8
  · rw [exec_storeMem_of_lt addr s hr] at h
    cases h
    refine ⟨fun a ha => read_writeMem_of_ne s _ ?_, rfl, rfl, rfl, rfl, rfl, .inl ⟨rfl, rfl, hr⟩⟩
    exact ha.resolve_right (Nat.not_le_of_lt hr)
  · have hge : 8 ≤ reg.toNat := Nat.le_of_not_lt hr
    rw [exec_storeMem, withReg_of_ge reg s _ hge] at h
    cases h
    exact ⟨fun _ _ => rfl, rfl, rfl, rfl, rfl, rfl, .inr ⟨rfl, rfl, hge⟩⟩

/-- An instruction without a destination changes no register. -/
theorem effect_regs_of_dest_none {i : Instr} {s t : State} (h : Effect i s t) (hi : i.dest = none) : t.regs = s.regs := by
  rcases effect_regs h with hregs | ⟨dest, _, _, hdest, _⟩
  · exact hregs
  · cases hi.symm.trans hdest

/-- An instruction that is no STORE_MEM changes no memory. -/
theorem effect_mem_of_ne_storeMem {i : Instr} {s t : State} (h : Effect i s t)
    (hi : ∀ addr reg, i ≠ .storeMem addr reg) : t.mem = s.mem := by
  rcases effect_mem h with hmem | ⟨addr, reg, _, hstore, _⟩
  · exact hmem
  · exact absurd hstore (hi addr reg)

/-- An instruction that is no PRINT changes no output. -/
theorem effect_out_of_ne_print {i : Instr} {s t : State} (h : Effect i s t) (hi : ∀ reg, i ≠ .print reg) :
    t.out = s.out := by
  rcases effect_out h with hout | ⟨reg, _, hprint, _⟩
  · exact hout
  · exact absurd hprint (hi reg)

/-- Settles O43: a control instruction has no destination, stores and prints nothing, and is neither HALT nor DIV. -/
theorem frameOfControlTransfers : Obligations.FrameOfControlTransfers := by
  intro i s t hi h
  have he := exec_effect i s t h
  have hcontrol : i.dest = none ∧ (∀ addr reg, i ≠ .storeMem addr reg) ∧ (∀ reg, i ≠ .print reg) ∧ i ≠ .halt ∧
      ∀ d a b, i ≠ .div d a b := by
    rcases hi with ⟨addr, rfl⟩ | ⟨reg, addr, rfl⟩ | ⟨reg, addr, rfl⟩ | ⟨addr, rfl⟩ | rfl <;> simp [Instr.dest]
  obtain ⟨hdest, hstore, hprint, hhalt, hdiv⟩ := hcontrol
  refine ⟨effect_regs_of_dest_none he hdest, fun a => ?mem, effect_out_of_ne_print he hprint, effect_trace he,
    ?stack, ?error⟩
  case mem => rw [effect_mem_of_ne_storeMem he hstore]
  case stack =>
    rcases effect_cs he with ⟨_, _, hcs⟩ | ⟨addr, hcall, _⟩ | ⟨hret, _⟩
    · exact .inl hcs
    · exact .inr (.inl ⟨addr, hcall⟩)
    · exact .inr (.inr hret)
  case error =>
    rcases effect_runState_error he with hsame | ⟨hi', _⟩ | ⟨hwf, rfl⟩ | ⟨hz, _⟩
    · exact .inl hsame
    · exact absurd hi' hhalt
    · exact .inr ⟨rfl, rfl, hwf, rfl⟩
    · exact absurd hz (not_dividesByZero hdiv)

/-- Settles O44: HALT writes `run_state`; PRINT appends to the output or raises IndexFault. -/
theorem frameOfHaltAndPrint : Obligations.FrameOfHaltAndPrint := by
  rintro i s t (rfl | ⟨reg, rfl⟩) h
  · cases h
    exact ⟨rfl, fun _ => rfl, rfl, rfl, rfl, fun _ => ⟨rfl, rfl⟩, fun hne => absurd rfl hne⟩
  · by_cases hr : reg.toNat < 8
    · rw [exec_print, withReg_of_lt reg s _ hr] at h
      cases h
      exact ⟨rfl, fun _ => rfl, rfl, rfl, rfl, by simp, fun _ => .inl ⟨rfl, rfl⟩⟩
    · rw [exec_print, withReg_of_ge reg s _ (Nat.le_of_not_lt hr)] at h
      cases h
      exact ⟨rfl, fun _ => rfl, rfl, rfl, rfl, by simp,
        fun _ => .inr ⟨rfl, rfl, rfl, fun hwf => hr ((wellFormed_one rfl).mp hwf)⟩⟩

/-! ### Whole steps -/

/-- Settles O45: the fetch changes `pc` and the trace only, so each piece is changed by the effect, or not at all. -/
theorem eachPieceOfStateChangesOnlyByItsOwnInstructions :
    Obligations.EachPieceOfStateChangesOnlyByItsOwnInstructions := by
  intro s t _ h
  rcases step_cases s t h with ⟨_, _, rfl⟩ | ⟨i, rest, hd, _, he⟩
  · exact ⟨fun _ hr => absurd rfl hr, fun _ ha => absurd rfl ha, .inl rfl, .inl rfl⟩
  · refine ⟨fun r hr => ?register, fun a ha => ?cell, ?stack, ?output⟩
    case register =>
      rcases effect_regs he with hregs | ⟨dest, v, hdest, hi, rfl⟩
      · exact absurd (congrArg (·[r]) hregs) hr
      · refine ⟨i, rest, dest, hd, hi, ?_⟩
        rw [readReg_writeReg] at hr
        by_contra hne
        exact hr (if_neg fun heq => hne (congrArg Fin.val heq).symm)
    case cell =>
      rcases effect_mem he with hmem | ⟨addr, reg, _, rfl, rfl⟩
      · exact absurd (congrArg (Memory.read · a) hmem) ha
      · have haddr : a = addr := by
          by_contra hne
          exact ha (read_writeMem_of_ne _ _ hne)
        exact ⟨reg, rest, haddr ▸ hd⟩
    case stack =>
      rcases effect_cs he with ⟨_, _, hcs⟩ | ⟨addr, rfl, hcs⟩ | ⟨rfl, hcs⟩
      · exact .inl hcs
      · exact .inr (.inl ⟨addr, rest, _, hd, hcs⟩)
      · exact .inr (.inr ⟨rest, hd, hcs⟩)
    case output =>
      rcases effect_out he with hout | ⟨reg, hr, rfl, hout⟩
      · exact .inl hout
      · exact .inr ⟨reg, rest, hr, hd, hout⟩

/-- Settles O46: the fetch moves `pc` past the bytes fetched; after that only a control instruction moves it. -/
theorem pcMovesToTheNextAddressOrATarget : Obligations.PcMovesToTheNextAddressOrATarget := by
  intro s t _ h
  refine ⟨fun b0 hd => ?illegal, fun i rest hd => effect_pc (effect_of_step h hd)⟩
  case illegal => rw [eq_raise_of_step_illegal h hd]; rfl

/-- A cell to which no step of a run stores reads at its end as at its start. -/
theorem runSteps_read {n : Nat} {s t : State} {a : Byte} (h : runSteps n s = .next t)
    (hstore : ∀ (k : Nat) (u : State), k < n → runSteps k s = .next u → ¬ u.StoresTo a) :
    t.mem.read a = s.mem.read a := by
  induction n generalizing s with
  | zero => cases h; rfl
  | succ n ih =>
    obtain ⟨u, hstep, hrest⟩ := exists_of_runSteps_succ n s t h
    have hlater : ∀ (k : Nat) (v : State), k < n → runSteps k u = .next v → ¬ v.StoresTo a :=
      fun k v hk hv => hstore (k + 1) v (Nat.succ_lt_succ hk) (by rw [runSteps_succ k s u hstep, hv])
    calc t.mem.read a = u.mem.read a := ih hrest hlater
      _ = s.mem.read a := step_read s u a hstep (hstore 0 s (Nat.succ_pos n) rfl)

/-- Settles O32: the step is one memory write after the fetch of three bytes; later steps that do not store to the cell
leave it, and a fetch reads the same memory. -/
theorem aStoreIsSeenByEveryLaterFetch : Obligations.AStoreIsSeenByEveryLaterFetch := by
  intro s t addr reg rest hr hrun hd h
  rw [step_of_instr hrun hd, exec_storeMem_of_lt addr _ hr] at h
  cases h
  have hcell := read_writeMem_same (s.afterFetch 3) addr s.regs[reg.toNat]
  refine ⟨hcell, rfl, fun n u hu hstore => ?later⟩
  case later =>
    have hread := (runSteps_read hu hstore).trans hcell
    refine ⟨hread, fun w hmem hpc => ?_⟩
    rw [fetchByte_fst, hmem, hpc, hread]

end Sys2Proof.Machine
end

section
/-! SUPPORT. The statement on `Dec` of 45_system_output.md: its three cases, and the ten digit characters. -/

namespace Sys2Proof.Machine

theorem dec_of_lt_ten {v : Byte} (h : v.toNat < 10) : dec v = [digit v.toNat] := if_pos h

theorem dec_of_lt_hundred {v : Byte} (h10 : 10 ≤ v.toNat) (h100 : v.toNat < 100) :
    dec v = [digit (v.toNat / 10), digit (v.toNat % 10)] :=
  (if_neg (Nat.not_lt.mpr h10)).trans (if_pos h100)

theorem dec_of_ge_hundred {v : Byte} (h100 : 100 ≤ v.toNat) :
    dec v = [digit (v.toNat / 100), digit (v.toNat / 10 % 10), digit (v.toNat % 10)] :=
  (if_neg (by omega)).trans (if_neg (Nat.not_lt.mpr h100))

/-- The digit characters are consecutive from `'0'` on (45_system_output.md R132). -/
theorem toNat_digit {d : Nat} (h : d < 10) : (digit d).toNat = '0'.toNat + d := by
  interval_cases d <;> rfl

theorem digit_bounds {d : Nat} (h : d < 10) : '0' ≤ digit d ∧ digit d ≤ '9' := by
  interval_cases d <;> decide

theorem eq_zero_of_digit_eq {d : Nat} (h : d < 10) (hd : digit d = '0') : d = 0 := by
  have := toNat_digit h
  rw [hd] at this
  omega

/-- A numeral holds nothing but digits. -/
theorem exists_digit_of_mem_dec {v : Byte} {c : Char} (hc : c ∈ dec v) : ∃ d < 10, c = digit d := by
  have hv : v.toNat < 256 := v.isLt
  by_cases h10 : v.toNat < 10
  · rw [dec_of_lt_ten h10, List.mem_singleton] at hc
    exact ⟨_, h10, hc⟩
  by_cases h100 : v.toNat < 100
  · simp only [dec_of_lt_hundred (Nat.le_of_not_lt h10) h100, List.mem_cons, List.not_mem_nil, or_false] at hc
    rcases hc with hc | hc
    · exact ⟨_, by omega, hc⟩
    · exact ⟨_, by omega, hc⟩
  · simp only [dec_of_ge_hundred (Nat.le_of_not_lt h100), List.mem_cons, List.not_mem_nil, or_false] at hc
    rcases hc with hc | hc | hc
    · exact ⟨_, by omega, hc⟩
    · exact ⟨_, by omega, hc⟩
    · exact ⟨_, by omega, hc⟩

/-- The value of a row of digit characters, most significant first. -/
def readBack (chars : List Char) : Nat := chars.foldl (fun n c => 10 * n + (c.toNat - '0'.toNat)) 0

theorem readBack_dec (v : Byte) : readBack (dec v) = v.toNat := by
  have hv : v.toNat < 256 := v.isLt
  by_cases h10 : v.toNat < 10
  · simp [readBack, dec_of_lt_ten h10, toNat_digit h10]
  by_cases h100 : v.toNat < 100
  · have htens : v.toNat / 10 < 10 := by omega
    have hones : v.toNat % 10 < 10 := by omega
    simp only [readBack, dec_of_lt_hundred (Nat.le_of_not_lt h10) h100, List.foldl_cons, List.foldl_nil,
      toNat_digit htens, toNat_digit hones]
    omega
  · have hhundreds : v.toNat / 100 < 10 := by omega
    have htens : v.toNat / 10 % 10 < 10 := by omega
    have hones : v.toNat % 10 < 10 := by omega
    simp only [readBack, dec_of_ge_hundred (Nat.le_of_not_lt h100), List.foldl_cons, List.foldl_nil,
      toNat_digit hhundreds, toNat_digit htens, toNat_digit hones]
    omega

/-- No leading zeros: the first digit of a numeral of two or three is the whole quotient, which is not 0. -/
theorem eq_zero_of_head_dec {v : Byte} (h : (dec v).head? = some '0') : v = 0 := by
  have hv : v.toNat < 256 := v.isLt
  by_cases h10 : v.toNat < 10
  · rw [dec_of_lt_ten h10] at h
    exact BitVec.eq_of_toNat_eq (eq_zero_of_digit_eq h10 (Option.some_inj.mp h))
  by_cases h100 : v.toNat < 100
  · rw [dec_of_lt_hundred (Nat.le_of_not_lt h10) h100] at h
    have := eq_zero_of_digit_eq (by omega) (Option.some_inj.mp h)
    omega
  · rw [dec_of_ge_hundred (Nat.le_of_not_lt h100)] at h
    have := eq_zero_of_digit_eq (by omega) (Option.some_inj.mp h)
    omega

/-- Settles O40: the three cases of `Dec` are the numerals of one, two and three digits. -/
theorem decIsTheBaseTenNumeral : Obligations.DecIsTheBaseTenNumeral := by
  intro v
  refine ⟨readBack_dec v, fun c hc => ?digits, fun h => ?one, fun h => ?two, fun h => ?three, eq_zero_of_head_dec,
    fun b hb => ?port⟩
  case digits =>
    obtain ⟨d, hlt, rfl⟩ := exists_digit_of_mem_dec hc
    exact digit_bounds hlt
  case one => rw [dec_of_lt_ten h]; rfl
  case two => rw [dec_of_lt_hundred h.1 h.2]; rfl
  case three => rw [dec_of_ge_hundred h]; rfl
  case port =>
    obtain ⟨c, hc, rfl⟩ := List.mem_map.mp hb
    obtain ⟨d, hlt, rfl⟩ := exists_digit_of_mem_dec hc
    have hd : (digit d).toNat = 48 + d := toNat_digit hlt
    rw [hd, BitVec.toNat_ofNat, Nat.mod_eq_of_lt (by omega)]
    omega

end Sys2Proof.Machine
end

section
/-! SUPPORT. The statements on runs of 40_sequencer.md sections 4 and 5: the loop of `run` by induction on its fuel. -/

namespace Sys2Proof.Machine

/-- The step of a JUMP to itself appends a trace entry and changes nothing else (44_control_flow.md, section JUMP). -/
theorem step_of_jump_self {s : State} {rest : List Byte} (hrun : s.runState = .running)
    (hd : s.decoded = .instr (.jump s.pc) rest) : step s = .next { s with trace := s.trace ++ [⟨s.pc, s.regs⟩] } := by
  rw [step_of_instr hrun hd, exec_jump]; rfl

/-- Settles O53, by induction on the number of steps: after one step the core stands where it was. -/
theorem aJumpToItselfRunsForever : Obligations.AJumpToItselfRunsForever := by
  intro s rest hrun hd n
  induction n generalizing s with
  | zero => exact ⟨s.trace, rfl, rfl⟩
  | succ n ih =>
    obtain ⟨trace, hrest, hlen⟩ := ih { s with trace := s.trace ++ [⟨s.pc, s.regs⟩] } hrun hd
    refine ⟨trace, ?_, ?_⟩
    · rw [runSteps_succ n s _ (step_of_jump_self hrun hd), hrest]
    · rw [hlen, List.length_append, List.length_singleton]; omega

/-- A loop that ends does so in a halted state reached by steps, and answers its read-out. -/
theorem exists_halted_of_runLoop_ended {fuel : Nat} {s : State} {r : ExecutionResult} (h : runLoop fuel s = .ended r) :
    ∃ (n : Nat) (t : State), n ≤ fuel ∧ runSteps n s = .next t ∧ t.runState ≠ .running ∧ r = t.result := by
  induction fuel generalizing s with
  | zero =>
    by_cases hrun : s.runState = .running
    · rw [runLoop_zero s hrun] at h; cases h
    · rw [runLoop_halted 0 s hrun] at h; cases h
      exact ⟨0, s, Nat.le_refl 0, rfl, hrun, rfl⟩
  | succ fuel ih =>
    by_cases hrun : s.runState = .running
    · obtain ⟨u, hstep⟩ := aRunningCoreAlwaysSteps s hrun
      rw [runLoop_succ fuel s u hstep] at h
      obtain ⟨n, t, hn, hrest, ht, hr⟩ := ih h
      exact ⟨n + 1, t, Nat.succ_le_succ hn, by rw [runSteps_succ n s u hstep, hrest], ht, hr⟩
    · rw [runLoop_halted (fuel + 1) s hrun] at h; cases h
      exact ⟨0, s, Nat.zero_le _, rfl, hrun, rfl⟩

/-- Everything the loop can come to: it ends, or the fuel is used up by as many steps and the core is still Running. -/
theorem runLoop_cases (fuel : Nat) (s : State) :
    (∃ r, runLoop fuel s = .ended r) ∨
      ∃ t, runLoop fuel s = .outOfFuel t ∧ t.runState = .running ∧ runSteps fuel s = .next t := by
  induction fuel generalizing s with
  | zero =>
    by_cases hrun : s.runState = .running
    · exact .inr ⟨s, runLoop_zero s hrun, hrun, rfl⟩
    · exact .inl ⟨_, runLoop_halted 0 s hrun⟩
  | succ fuel ih =>
    by_cases hrun : s.runState = .running
    · obtain ⟨u, hstep⟩ := aRunningCoreAlwaysSteps s hrun
      rw [runLoop_succ fuel s u hstep, runSteps_succ fuel s u hstep]
      exact ih u
    · exact .inl ⟨_, runLoop_halted (fuel + 1) s hrun⟩

/-- More fuel does not change what a loop that ends comes to. -/
theorem runLoop_add_of_ended {fuel : Nat} (more : Nat) {s : State} {r : ExecutionResult}
    (h : runLoop fuel s = .ended r) : runLoop (fuel + more) s = .ended r := by
  induction fuel generalizing s with
  | zero =>
    by_cases hrun : s.runState = .running
    · rw [runLoop_zero s hrun] at h; cases h
    · rw [runLoop_halted 0 s hrun] at h
      rw [runLoop_halted _ s hrun, h]
  | succ fuel ih =>
    by_cases hrun : s.runState = .running
    · obtain ⟨u, hstep⟩ := aRunningCoreAlwaysSteps s hrun
      rw [runLoop_succ fuel s u hstep] at h
      rw [Nat.add_right_comm, runLoop_succ _ s u hstep, ih h]
    · rw [runLoop_halted _ s hrun] at h
      rw [runLoop_halted _ s hrun, h]

/-- Only a Running core is run to an end (40_sequencer.md R80). -/
theorem running_of_run_ended {fuel : Nat} {s : State} {r : ExecutionResult} (h : run fuel s = .ended r) :
    s.runState = .running := by
  unfold run at h
  cases hr : s.runState <;> simp [hr] at h ⊢

/-- Settles O56: the record is the read-out of the halted state the loop ended in, and the invariant, which the steps
keep, ties its error to its run state. -/
theorem runYieldsTheResultOfTheHaltedState : Obligations.RunYieldsTheResultOfTheHaltedState := by
  intro fuel s r hinv h
  rw [run_running fuel s (running_of_run_ended h)] at h
  obtain ⟨n, t, hn, hsteps, ht, rfl⟩ := exists_halted_of_runLoop_ended h
  refine ⟨n, t, hn, hsteps, ht, rfl, rfl, rfl, rfl, result_success_iff t, ?noError⟩
  case noError =>
    have hhalted : t.runState ≠ .haltedError ↔ t.runState = .haltedOk := by cases hr : t.runState <;> simp [hr] at ht ⊢
    calc t.error = none ↔ t.runState ≠ .haltedError := (runSteps_keeps_inv hinv hsteps).errorKind
      _ ↔ t.runState = .haltedOk := hhalted
      _ ↔ t.result.success = true := (result_success_iff t).symm

/-- Settles O57: the loop ends or uses all its fuel, and each step of it appends one trace entry. -/
theorem runEndsOrUsesAllItsFuel : Obligations.RunEndsOrUsesAllItsFuel := by
  intro fuel s hrun
  rw [run_running fuel s hrun]
  refine (runLoop_cases fuel s).imp_right ?_
  rintro ⟨t, hloop, ht, hsteps⟩
  obtain ⟨entries, htrace, hlen, _⟩ := runSteps_trace hsteps
  exact ⟨t, hloop, ht, hsteps, by rw [htrace, List.length_append, hlen]⟩

/-- Settles O58: the run is its loop, which ends the same under any greater fuel. -/
theorem resultDoesNotDependOnFuel : Obligations.ResultDoesNotDependOnFuel := by
  intro fuel more s r h
  have hrun := running_of_run_ended h
  rw [run_running _ s hrun] at h ⊢
  exact runLoop_add_of_ended more h

end Sys2Proof.Machine
end
